-- ==== Sys2Proof/Word.lean ====
section
/-! DEFINITION. The bit vectors of the register bus: words, byte lanes and offsets. -/

namespace Sys2Proof

/-- One 32-bit bus word: a CSR, a limb of a big register or a command (20_memory.md R51, R55; 30_encoding.md R70). -/
abbrev Word := BitVec 32

/-- One byte lane of a bus word (20_memory.md R55), or one byte of a key-layout magnitude (R69). -/
abbrev Byte := BitVec 8

/-- A 14-bit byte offset into the block's 16 KiB register space (00_scope.md R14; 20_memory.md R50). -/
abbrev Offset := BitVec 14

end Sys2Proof
end

