-- ==== Sys2Proof/Config.lean ====
section
/-! DEFINITION. What is fixed for one build of PMC-MAB, and the free values the spec leaves open. -/

namespace Sys2Proof.Config

/-- The number of big registers, fixed (00_scope.md R9). -/
abbrev nregs : Nat := 8

/-- `L` of the reference configuration W = 2048 (00_scope.md R6, R7).
DESIGN CHOICE (log entry 1): only `State.reset` uses it; every other definition takes `L` from the state. -/
abbrev referenceLimbs : Nat := 64

/-- ID.MAGIC, ASCII "MA" (10_state.md R22). -/
abbrev idMagic : BitVec 16 := 0x4D41

/-- ID.VERSION, the command-set version (10_state.md R22; 00_scope.md R3). -/
abbrev idVersion : BitVec 8 := 0x01

/-- FREE VALUE (log entry 3): what a big register holds after draw number `draw` of a run, a draw being made whenever
hardware reset leaves the contents unspecified.
10_state.md R21: a read returns some W-bit value that no rule constrains. -/
opaque resetContents : (draw : Nat) → (register : Fin 8) → Nat

/-- FREE VALUE (log entry 16): the address of offset 0x0000 in the host's address space, a platform
parameter (00_scope.md R9, 20_memory.md R50). -/
opaque base : Nat

end Sys2Proof.Config
end

