-- ==== Sys2Proof/Syntax.lean ====
section
/-! DEFINITION. The commands, one constructor per row of spec/opcode_table.json, and the host's bus operations. -/

namespace Sys2Proof

/-- A register field RD, RA, RB or RN: value `k` names big register `Bk` (30_encoding.md R71). -/
abbrev RegIx := Fin 8

/-- The nine defined opcodes (30_encoding.md R73). -/
inductive Opcode where
  | nop | mov | montmul | tomont | frommont | modmul | modinv | modred | modexp
deriving DecidableEq, Repr

/-- A command that decodes, with the fields its opcode uses in the order RD, RA, RB, RN (30_encoding.md R73, R74). -/
inductive Instr where
  | nop
  | mov (rd ra : RegIx)
  | montmul (rd ra rb rn : RegIx)
  | tomont (rd ra rn : RegIx)
  | frommont (rd ra rn : RegIx)
  | modmul (rd ra rb rn : RegIx)
  | modinv (rd ra rn : RegIx)
  | modred (rd ra rn : RegIx)
  | modexp (rd ra rb rn : RegIx)
deriving DecidableEq, Repr

/-- The pseudo-instructions of the assembler (30_encoding.md R80). -/
inductive Pseudo where
  | modsqr (rd ra rn : RegIx)
  | montsqr (rd ra rn : RegIx)
  | rsaapply (rd rm rx rn : RegIx)
deriving DecidableEq, Repr

/-- What a bus access names: a byte offset and a width in bytes (20_memory.md R50, R51). -/
structure Access where
  offset : Offset
  bytes : Nat
deriving DecidableEq, Repr

/-- One operation of the host. -/
inductive BusOp where
  /-- `MemRead(off, 4)` when the access is the defined one (00_scope.md R12). -/
  | read (a : Access)
  /-- `MemWrite(off, 4, v)` when the access is the defined one (00_scope.md R12). -/
  | write (a : Access) (v : Word)
  /-- The `wait` line of a host script: read STATUS until BUSY is clear (30_encoding.md R81). -/
  | poll
deriving DecidableEq, Repr

/-- Who takes the next step (00_scope.md R13). -/
inductive Turn where
  /-- The host performs its next bus operation. -/
  | host
  /-- The engine takes the completion step, if a command is in flight (10_state.md R38). -/
  | engine
  /-- The active unit advances its internal state by one digit, quotient or exponent bit (10_state.md R41). -/
  | work
  /-- The platform drives `rst_n` low: hardware reset is asserted (70_reset_and_hazards.md R160). -/
  | resetLow
  /-- The platform drives `rst_n` high: hardware reset is released (70_reset_and_hazards.md R160). -/
  | resetHigh
deriving DecidableEq, Repr

end Sys2Proof
end

