-- ==== Sys2Proof/WellFormed.lean ====
section
/-! DEFINITION. The well-formedness checks: bus accesses and the width parameter.
A term of `Instr` needs no check of its own: its opcode is its constructor and each operand is a `RegIx`, so an
unused field or an index above 7 cannot be written. The checks on a raw command WORD (30_encoding.md R74, R75)
are the decoder's, in Sys2Proof/Decode.lean. -/

namespace Sys2Proof

/-- The only defined access: 32 bits at a multiple of 4 (20_memory.md R51). -/
abbrev Access.wf (a : Access) : Prop := a.bytes = 4 ∧ a.offset.toNat % 4 = 0

/-- The values `L = W / 32` may have (00_scope.md R6, R7). -/
abbrev legalLimbs (limbs : Nat) : Prop := 2 ≤ limbs ∧ limbs ≤ 256

/-- A host operation that the spec defines. -/
def BusOp.wf : BusOp → Bool
  | .read a => decide a.wf
  | .write a _ => decide a.wf
  | .poll => true

end Sys2Proof
end

