-- ==== Sys2Proof/Decode.lean ====
section
/-! DEFINITION. The command word: its fields, the decoder, the encoder and the opcode table (30_encoding.md). -/

namespace Sys2Proof

/-- Why a word does not decode (30_encoding.md R76). -/
inductive DecodeError where
  /-- OP is not one of the nine defined opcodes. -/
  | opcode
  /-- A reserved bit, or a field the opcode does not use, is nonzero. -/
  | field
deriving DecidableEq, Repr

/-! ## Fields (30_encoding.md R70) -/

def fieldOp (w : Word) : BitVec 8 := w.extractLsb' 0 8
def fieldRd (w : Word) : BitVec 3 := w.extractLsb' 8 3
def fieldRa (w : Word) : BitVec 3 := w.extractLsb' 12 3
def fieldRb (w : Word) : BitVec 3 := w.extractLsb' 16 3
def fieldRn (w : Word) : BitVec 3 := w.extractLsb' 20 3

/-- A 3-bit field as a register index (30_encoding.md R71). -/
def toRegIx (f : BitVec 3) : RegIx := f.toFin

/-- A register index as a 3-bit field. -/
def ofRegIx (k : RegIx) : BitVec 3 := BitVec.ofFin k

/-- Bits 31:23, 19, 15 and 11 are zero (30_encoding.md R75). -/
def reservedZero (w : Word) : Bool :=
  w.extractLsb' 23 9 == 0 && w.extractLsb' 19 1 == 0 && w.extractLsb' 15 1 == 0 && w.extractLsb' 11 1 == 0

/-! ## Opcode map (30_encoding.md R73, R74) -/

/-- The value of OP. -/
def Opcode.code : Opcode → BitVec 8
  | .nop => 0x00 | .mov => 0x01
  | .montmul => 0x10 | .tomont => 0x11 | .frommont => 0x12 | .modmul => 0x13
  | .modinv => 0x20 | .modred => 0x21
  | .modexp => 0x30

def Opcode.all : List Opcode :=
  [.nop, .mov, .montmul, .tomont, .frommont, .modmul, .modinv, .modred, .modexp]

/-- The opcode an OP value names; `none` for the 247 reserved values (30_encoding.md R77). -/
def opcodeOf (c : BitVec 8) : Option Opcode := Opcode.all.find? fun op => op.code == c

def Opcode.usesRd : Opcode → Bool
  | .nop => false
  | .mov | .montmul | .tomont | .frommont | .modmul | .modinv | .modred | .modexp => true

def Opcode.usesRa : Opcode → Bool
  | .nop => false
  | .mov | .montmul | .tomont | .frommont | .modmul | .modinv | .modred | .modexp => true

def Opcode.usesRb : Opcode → Bool
  | .nop | .mov | .tomont | .frommont | .modinv | .modred => false
  | .montmul | .modmul | .modexp => true

def Opcode.usesRn : Opcode → Bool
  | .nop | .mov => false
  | .montmul | .tomont | .frommont | .modmul | .modinv | .modred | .modexp => true

/-- Every field the opcode does not use is zero (30_encoding.md R74). -/
def unusedZero (op : Opcode) (w : Word) : Bool :=
  (op.usesRd || fieldRd w == 0) && (op.usesRa || fieldRa w == 0) &&
  (op.usesRb || fieldRb w == 0) && (op.usesRn || fieldRn w == 0)

/-- The command an opcode makes of its fields. -/
def Opcode.build (op : Opcode) (rd ra rb rn : RegIx) : Instr :=
  match op with
  | .nop => .nop
  | .mov => .mov rd ra
  | .montmul => .montmul rd ra rb rn
  | .tomont => .tomont rd ra rn
  | .frommont => .frommont rd ra rn
  | .modmul => .modmul rd ra rb rn
  | .modinv => .modinv rd ra rn
  | .modred => .modred rd ra rn
  | .modexp => .modexp rd ra rb rn

/-! ## Decoder (30_encoding.md R76): the opcode check precedes the field checks -/

def decode (w : Word) : Except DecodeError Instr :=
  match opcodeOf (fieldOp w) with
  | none => .error .opcode
  | some op =>
    if reservedZero w && unusedZero op w then
      .ok (op.build (toRegIx (fieldRd w)) (toRegIx (fieldRa w)) (toRegIx (fieldRb w)) (toRegIx (fieldRn w)))
    else .error .field

/-- The decoder on a table word: a command is exactly one 32-bit word (30_encoding.md R78). -/
def decodeTableWord (nbits w : Nat) : Option Instr :=
  match decode (BitVec.ofNat 32 (w % 2 ^ nbits)) with
  | .ok i => some i
  | .error _ => none

/-! ## The parts of a command -/

def Instr.opcode : Instr → Opcode
  | .nop => .nop
  | .mov _ _ => .mov
  | .montmul _ _ _ _ => .montmul
  | .tomont _ _ _ => .tomont
  | .frommont _ _ _ => .frommont
  | .modmul _ _ _ _ => .modmul
  | .modinv _ _ _ => .modinv
  | .modred _ _ _ => .modred
  | .modexp _ _ _ _ => .modexp

/-- RD, where the opcode uses it. -/
def Instr.dest? : Instr → Option RegIx
  | .nop => none
  | .mov rd _ | .montmul rd _ _ _ | .tomont rd _ _ | .frommont rd _ _ | .modmul rd _ _ _
  | .modinv rd _ _ | .modred rd _ _ | .modexp rd _ _ _ => some rd

/-- RA, where the opcode uses it. -/
def Instr.srcA? : Instr → Option RegIx
  | .nop => none
  | .mov _ ra | .montmul _ ra _ _ | .tomont _ ra _ | .frommont _ ra _ | .modmul _ ra _ _
  | .modinv _ ra _ | .modred _ ra _ | .modexp _ ra _ _ => some ra

/-- RB, where the opcode uses it. -/
def Instr.srcB? : Instr → Option RegIx
  | .nop | .mov _ _ | .tomont _ _ _ | .frommont _ _ _ | .modinv _ _ _ | .modred _ _ _ => none
  | .montmul _ _ rb _ | .modmul _ _ rb _ | .modexp _ _ rb _ => some rb

/-- RN, where the opcode uses it. -/
def Instr.modulus? : Instr → Option RegIx
  | .nop | .mov _ _ => none
  | .montmul _ _ _ rn | .tomont _ _ rn | .frommont _ _ rn | .modmul _ _ _ rn
  | .modinv _ _ rn | .modred _ _ rn | .modexp _ _ _ rn => some rn

/-! ## Encoder -/

/-- The pattern of 30_encoding.md R70, most significant bit first:
`000000000 nnn 0 bbb 0 aaa 0 ddd oooooooo`. -/
def packWord (op : BitVec 8) (rd ra rb rn : BitVec 3) : Word :=
  0#9 ++ rn ++ 0#1 ++ rb ++ 0#1 ++ ra ++ 0#1 ++ rd ++ op

/-- A field the command does not use is 0 (30_encoding.md R74). -/
def usedField : Option RegIx → BitVec 3
  | none => 0
  | some k => ofRegIx k

/-- The word of a command (30_encoding.md R70, R73, R79). -/
def encode (i : Instr) : Word :=
  packWord i.opcode.code (usedField i.dest?) (usedField i.srcA?) (usedField i.srcB?) (usedField i.modulus?)

/-- What a pseudo-instruction stands for (30_encoding.md R80). -/
def Pseudo.expand : Pseudo → Instr
  | .modsqr rd ra rn => .modmul rd ra ra rn
  | .montsqr rd ra rn => .montmul rd ra ra rn
  | .rsaapply rd rm rx rn => .modexp rd rm rx rn

/-! ## The opcode table (spec/opcode_table.json): a word is the row's when `w &&& mask = match` -/

def Opcode.tableMatch (op : Opcode) : Word := op.code.setWidth 32

def Opcode.tableMask : Opcode → Word
  | .nop => 0xFFFFFFFF
  | .mov => 0xFFFF88FF
  | .montmul | .modmul | .modexp => 0xFF8888FF
  | .tomont | .frommont | .modinv | .modred => 0xFF8F88FF

end Sys2Proof
end

