-- ==== Sys2Proof/Machine/State.lean ====
section
/-! DEFINITION. The state of the block, its two agents and its engines as plain data, the reasons a step stops, and reset. -/

namespace Sys2Proof.Machine

/-- The six error codes (60_exceptions.md R141). -/
inductive ErrorCode where
  /-- 1, ERR_OPCODE: OP is not a defined opcode. -/
  | opcode
  /-- 2, ERR_FIELD: a reserved bit or an unused field is nonzero. -/
  | field
  /-- 3, ERR_MOD_ZERO: the modulus is 0. -/
  | modZero
  /-- 4, ERR_MOD_EVEN: the modulus is even. -/
  | modEven
  /-- 5, ERR_RANGE: the second operand of MONTMUL is not below the modulus. -/
  | range
  /-- 6, ERR_NOT_INV: no inverse exists. -/
  | notInv
deriving DecidableEq, Repr

/-- STATUS.ERRCODE. Values 7 to 15 are never written (10_state.md R31), so they are not values of the type (log entry 9). -/
inductive CompletionCode where
  | ok
  | error (e : ErrorCode)
deriving DecidableEq, Repr

/-- The hidden record of the command in flight (10_state.md R36). Its fields op, rd, ra, rb and rn are the bit fields
`fieldOp`, `fieldRd`, `fieldRa`, `fieldRb`, `fieldRn` of `word`. A value is absent where the opcode does not use the field. -/
structure Inflight where
  word : Word
  va : Option Nat
  vb : Option Nat
  vn : Option Nat
deriving DecidableEq, Repr

/-- The Montgomery multiplier at work on `montmul_ref x y` (10_state.md R41; 41_montgomery.md R102, R106). -/
structure MontUnit where
  modulus : Nat
  /-- `n0'`, minus the inverse of the modulus modulo 2^32. -/
  n0 : Nat
  /-- `R^2 mod n`. -/
  r2 : Nat
  x : Nat
  y : Nat
  /-- The number of 32-bit digits of `x` already taken. -/
  digit : Nat
  /-- The accumulator `t`. -/
  acc : Nat
  /-- The first operand of a second product whose other operand is this product, if one follows (MODMUL, R106). -/
  pending : Option Nat
deriving DecidableEq, Repr

/-- The exponentiation pipeline at work (10_state.md R41; 43_modexp.md R131). -/
structure ExpUnit where
  modulus : Nat
  /-- `n0'` of the multiplier the pipeline drives. -/
  n0 : Nat
  /-- `R^2 mod n`. -/
  r2 : Nat
  exponent : Nat
  /-- The base in Montgomery form. -/
  abar : Nat
  /-- How many exponent bits are still to be scanned. -/
  index : Nat
  /-- The running product `x`, in Montgomery form. -/
  product : Nat
deriving DecidableEq, Repr

/-- The remainder, quotient and coefficient registers of the extended-Euclidean engine (10_state.md R41; 42_euclid.md R121). -/
structure EuclidRegs where
  oldR : Nat
  r : Nat
  quot : Nat
  oldS : Int
  s : Int
deriving DecidableEq, Repr

/-- Engine-internal state (10_state.md R41). Only one of the three units is active at a time (00_scope.md R2). -/
inductive Engine where
  /-- No unit holds a value. -/
  | idle
  | mont (m : MontUnit)
  | exp (m : ExpUnit)
  /-- MODINV: the whole algorithm modulo `n`. -/
  | inverse (n : Nat) (e : EuclidRegs)
  /-- MODRED: one division (42_euclid.md R122). -/
  | divide (e : EuclidRegs)
  /-- The unit has its answer and waits for the completion step; `none` is NOT_INVERTIBLE (R121). -/
  | finished (v : Option Nat)
deriving DecidableEq, Repr

/-- The machine. Every field is described, with its rule and its reset value, in INVENTORY.md under State. -/
structure State where
  /-- PARAM.LIMBS (10_state.md R23): `L`, fixed by the configuration; `W = 32 L`. -/
  limbs : Nat
  /-- B0 to B7 (10_state.md R20). -/
  regs : Vector Nat 8
  /-- CTRL.IE (10_state.md R24). -/
  ie : Bool
  /-- STATUS.BUSY (10_state.md R27). -/
  busy : Bool
  /-- STATUS.DONE (10_state.md R28). -/
  done : Bool
  /-- STATUS.DROP (10_state.md R30). -/
  drop : Bool
  /-- STATUS.ERRCODE (10_state.md R31). -/
  errcode : CompletionCode
  /-- CMD, the most recently accepted word (10_state.md R33). -/
  cmd : Word
  /-- The command in flight (10_state.md R36). -/
  inflight : Option Inflight
  /-- Engine-internal state (10_state.md R41). -/
  engine : Engine
  /-- The input `rst_n` is low (00_scope.md R14; 70_reset_and_hazards.md R160). -/
  rstLow : Bool
  /-- The model's own: how many times hardware reset has drawn free register contents (log entry 3). -/
  draws : Nat
  /-- The model's own: the host's operations still to come, in its program order (log entry 4). -/
  hostOps : List BusOp
  /-- The model's own: the words the bus returned to the host, newest first (log entry 6). -/
  hostReads : List Word
  /-- The model's own: whose turn it is; when it is empty the engine moves while BUSY, else the host (log entry 4). -/
  schedule : List Turn
deriving DecidableEq, Repr

/-- Why the machine stops with a fault. Both are raised only in states that break 10_state.md R36, which no run reaches
(`State.Inv`); stopping there is safe (log entry 13). -/
inductive Fault where
  /-- Raised by the engine's turn and by an operand read: BUSY = 1 and no command in flight. Safe. -/
  | noCommandInFlight
  /-- Raised by an operand read: the record in flight lacks a value its opcode uses. Safe. -/
  | operandNotLatched
deriving DecidableEq, Repr

/-- Why the machine gives a step no meaning. -/
inductive Refusal where
  /-- Raised by an arm of `exec` whose instruction has no meaning yet; no arm does. Safe. -/
  | notModelled (mnemonic : String)
  /-- Raised by the host's turn: an access that is not an aligned 32-bit one, whose behaviour is unspecified and which
  a model refuses (20_memory.md R51; 93_implementation_defined.md). Safe (log entry 7). -/
  | accessNotDefined (a : Access)
deriving DecidableEq, Repr

/-- The block right after hardware reset in the configuration `W = 32 * limbs` (10_state.md R35; 70_reset_and_hazards.md
R160, R162), with no host operation and no turn placed.
DESIGN CHOICE (log entry 2): the big registers, whose contents R21 leaves unspecified, hold 0.
DESIGN CHOICE (log entry 8): no unit holds a value; no rule gives the engine-internal state (R41) a reset value. -/
def State.resetWith (limbs : Nat) : State where
  limbs := limbs
  regs := Vector.replicate 8 0
  ie := false
  busy := false
  done := false
  drop := false
  errcode := .ok
  cmd := 0
  inflight := none
  engine := .idle
  rstLow := false
  draws := 0
  hostOps := []
  hostReads := []
  schedule := []

/-- The reference configuration after reset. DESIGN CHOICE (log entry 1): W = 2048. -/
def State.reset : State := State.resetWith Config.referenceLimbs

end Sys2Proof.Machine
end

