-- ==== Sys2Proof/Machine/Arith.lean ====
section
/-! DEFINITION. Arithmetic of the three engines over the unsigned integers (00_scope.md R10, R11), and the reference
algorithms of 41_montgomery.md R102 and R106, 42_euclid.md R121 and 43_modexp.md R131. -/

namespace Sys2Proof.Machine

/-- The number of bits up to the highest set bit, 0 for 0 (00_scope.md R11). -/
def bitlen (v : Nat) : Nat := if v = 0 then 0 else Nat.log2 v + 1

/-- `R = 2^W`, the Montgomery radix (00_scope.md R8). -/
def radix (limbs : Nat) : Nat := 2 ^ (32 * limbs)

/-- Limb or digit `i` of a value: bits `32 i + 31 : 32 i` (20_memory.md R53). -/
def digitOf (v i : Nat) : Nat := v / 2 ^ (32 * i) % 2 ^ 32

/-! ## Extended Euclid (42_euclid.md R121) -/

/-- One pass of the loop body. -/
def euclidStep (e : EuclidRegs) : EuclidRegs :=
  let q := e.oldR / e.r
  { oldR := e.r, r := e.oldR - q * e.r, quot := q, oldS := e.s, s := e.oldS - q * e.s }

/-- At most `fuel` passes, stopping when the remainder is 0. -/
def euclidLoop : Nat → EuclidRegs → EuclidRegs
  | 0, e => e
  | fuel + 1, e => if e.r = 0 then e else euclidLoop fuel (euclidStep e)

/-- The registers before the first pass: remainders `(a, n)`, coefficients `(1, 0)`.
DESIGN CHOICE (log entry 8): the quotient register, which R121 and 10_state.md R41 give no value before the first pass, holds 0. -/
def euclidStart (a n : Nat) : EuclidRegs := { oldR := a, r := n, quot := 0, oldS := 1, s := 0 }

/-- `inv(a, n)` for `n >= 2` and `gcd(a, n) = 1`: the `x` with `0 <= x < n` and `(a x) mod n = 1` (00_scope.md R11).
The remainder falls at every pass, so `n + 1` passes end the loop (log entry 17). -/
def modInv (a n : Nat) : Nat := ((euclidLoop (n + 1) (euclidStart a n)).oldS % (n : Int)).toNat

/-- The end of R121: NOT_INVERTIBLE, or the coefficient with `n` added if it is negative. -/
def normalizeInverse (n : Nat) (e : EuclidRegs) : Option Nat :=
  if e.oldR ≠ 1 then none
  else if e.oldS < 0 then some (e.oldS + n).toNat else some e.oldS.toNat

/-- `modinv_ref` (42_euclid.md R121); `none` is NOT_INVERTIBLE. -/
def modinvRef (a n : Nat) : Option Nat := normalizeInverse n (euclidLoop (n + 1) (euclidStart a n))

/-! ## Modular power -/

/-- Left-to-right square and multiply over the lowest `i` bits of the exponent. -/
def powLoop (base e n : Nat) : Nat → Nat → Nat
  | 0, x => x
  | i + 1, x => powLoop base e n i (if e.testBit i then x * x % n * base % n else x * x % n)

/-- `(base ^ e) mod n` for `n >= 1` (43_modexp.md R130), computed so that it can be evaluated for every operand. -/
def powMod (base e n : Nat) : Nat := powLoop base e n (bitlen e) (1 % n)

/-! ## Montgomery reference algorithm (41_montgomery.md R102) -/

/-- `n0' = (-(n^-1)) mod 2^32`, for odd `n`. -/
def negInv32 (n : Nat) : Nat := (2 ^ 32 - modInv (n % 2 ^ 32) (2 ^ 32)) % 2 ^ 32

/-- The loop body for digit `i`. -/
def montDigit (n0 n a b i t : Nat) : Nat :=
  let t := t + digitOf a i * b
  let m := t % 2 ^ 32 * n0 % 2 ^ 32
  (t + m * n) / 2 ^ 32

/-- The accumulator after the first `k` digits. -/
def montAcc (n0 n a b : Nat) : Nat → Nat
  | 0 => 0
  | k + 1 => montDigit n0 n a b k (montAcc n0 n a b k)

/-- The final subtraction. -/
def montReduce (n t : Nat) : Nat := if n ≤ t then t - n else t

/-- `montmul_ref(a, b, n)` with 32-bit digits, `W = 32 * limbs`. -/
def montmulRef (limbs a b n : Nat) : Nat := montReduce n (montAcc (negInv32 n) n a b limbs)

/-! ## Internal realisation of the other commands (41_montgomery.md R106, 43_modexp.md R131) -/

/-- `R2 = R^2 mod n`. -/
def rSquared (limbs n : Nat) : Nat := radix limbs ^ 2 % n

def tomontRef (limbs a n : Nat) : Nat := montmulRef limbs a (rSquared limbs n) n

def frommontRef (limbs a n : Nat) : Nat := montmulRef limbs a 1 n

def modmulRef (limbs a b n : Nat) : Nat := montmulRef limbs b (montmulRef limbs a (rSquared limbs n) n) n

/-- Square, and multiply by `abar` if the exponent bit is set. -/
def expBit (limbs abar n x : Nat) (bit : Bool) : Nat :=
  if bit then montmulRef limbs (montmulRef limbs x x n) abar n else montmulRef limbs x x n

/-- The loop of `modexp_ref` over the lowest `i` exponent bits. -/
def modexpLoop (limbs abar e n : Nat) : Nat → Nat → Nat
  | 0, x => x
  | i + 1, x => modexpLoop limbs abar e n i (expBit limbs abar n x (e.testBit i))

/-- `modexp_ref(base, e, n)`. -/
def modexpRef (limbs base e n : Nat) : Nat :=
  montmulRef limbs
    (modexpLoop limbs (montmulRef limbs base (rSquared limbs n) n) e n (bitlen e) (radix limbs % n)) 1 n

end Sys2Proof.Machine
end

