-- ==== Sys2Proof/Machine/Engine.lean ====
section
/-! DEFINITION. The engine-internal state (10_state.md R41): what a unit holds when a command is accepted, and one hidden
turn of its work. No host transaction reads it and no result depends on it (log entry 8). -/

namespace Sys2Proof.Machine

/-- The Montgomery multiplier about to compute `montmul_ref(x, y, n)`, then `montmul_ref(b, that, n)` if `pending = some b`. -/
def montStart (limbs n x y : Nat) (pending : Option Nat) : Engine :=
  .mont { modulus := n, n0 := negInv32 n, r2 := rSquared limbs n, x := x, y := y, digit := 0, acc := 0, pending := pending }

/-- The exponentiation pipeline before its first exponent bit (43_modexp.md R131). -/
def expStart (limbs base e n : Nat) : Engine :=
  .exp
    { modulus := n, n0 := negInv32 n, r2 := rSquared limbs n, exponent := e,
      abar := montmulRef limbs base (rSquared limbs n) n, index := bitlen e, product := radix limbs % n }

/-- What the units hold at acceptance of a command: nothing for a command that a check stops before any arithmetic
(41_montgomery.md R100, R101; 42_euclid.md R120, R122).
DESIGN CHOICE (log entry 8): for modulus 1 FROMMONT and MODEXP, which R104 and 43_modexp.md R130 answer with 0 before any
arithmetic and R106 and R131 leave out, load their unit like any odd modulus; its answer is 0 too. Nor does any rule say what the
coefficient registers hold during MODRED (R121 gives `(1, 0)` for MODINV, R122 names only the division): `(1, 0)` here too. -/
def Engine.load (limbs : Nat) (f : Inflight) : Engine :=
  match decode f.word with
  | .error _ => .idle
  | .ok i =>
    match i with
    | .nop => .idle
    | .mov _ _ => .idle
    | .montmul _ _ _ _ =>
      match f.va, f.vb, f.vn with
      | some a, some b, some n => if n % 2 = 1 ∧ b < n then montStart limbs n a b none else .idle
      | _, _, _ => .idle
    | .tomont _ _ _ =>
      match f.va, f.vn with
      | some a, some n => if n % 2 = 1 then montStart limbs n a (rSquared limbs n) none else .idle
      | _, _ => .idle
    | .frommont _ _ _ =>
      match f.va, f.vn with
      | some a, some n => if n % 2 = 1 then montStart limbs n a 1 none else .idle
      | _, _ => .idle
    | .modmul _ _ _ _ =>
      match f.va, f.vb, f.vn with
      | some a, some b, some n => if n % 2 = 1 then montStart limbs n a (rSquared limbs n) (some b) else .idle
      | _, _, _ => .idle
    | .modinv _ _ _ =>
      match f.va, f.vn with
      | some a, some n => if 2 ≤ n then .inverse n (euclidStart a n) else .idle
      | _, _ => .idle
    | .modred _ _ _ =>
      match f.va, f.vn with
      | some a, some n => if n ≠ 0 then .divide (euclidStart a n) else .idle
      | _, _ => .idle
    | .modexp _ _ _ _ =>
      match f.va, f.vb, f.vn with
      | some base, some e, some n => if n % 2 = 1 then expStart limbs base e n else .idle
      | _, _, _ => .idle

/-- One digit of the Montgomery multiplier, or its final subtraction (41_montgomery.md R102, R106). -/
def montWork (limbs : Nat) (m : MontUnit) : Engine :=
  if m.digit < limbs then
    .mont { m with acc := montDigit m.n0 m.modulus m.x m.y m.digit m.acc, digit := m.digit + 1 }
  else
    match m.pending with
    | none => .finished (some (montReduce m.modulus m.acc))
    | some b => .mont { m with x := b, y := montReduce m.modulus m.acc, digit := 0, acc := 0, pending := none }

/-- One exponent bit of the pipeline, or its way out of Montgomery form (43_modexp.md R131). -/
def expWork (limbs : Nat) (m : ExpUnit) : Engine :=
  match m.index with
  | 0 => .finished (some (montmulRef limbs m.product 1 m.modulus))
  | i + 1 => .exp { m with index := i, product := expBit limbs m.abar m.modulus m.product (m.exponent.testBit i) }

/-- One hidden turn of the active unit. -/
def Engine.work (limbs : Nat) : Engine → Engine
  | .idle => .idle
  | .mont m => montWork limbs m
  | .exp m => expWork limbs m
  | .inverse n e => if e.r = 0 then .finished (normalizeInverse n e) else .inverse n (euclidStep e)
  | .divide e => .finished (some (euclidStep e).r)
  | .finished v => .finished v

/-- `k` hidden turns. -/
def Engine.workFor (limbs : Nat) : Nat → Engine → Engine
  | 0, e => e
  | k + 1, e => Engine.workFor limbs k (Engine.work limbs e)

end Sys2Proof.Machine
end

