-- ==== Sys2Proof/Machine/Flags.lean ====
section
/-! DEFINITION. The control and status words, and the interrupt output. The block has no condition codes (10_state.md R34). -/

namespace Sys2Proof.Machine

/-- The code of an error (60_exceptions.md R141). -/
def ErrorCode.bits : ErrorCode → BitVec 4
  | .opcode => 1
  | .field => 2
  | .modZero => 3
  | .modEven => 4
  | .range => 5
  | .notInv => 6

/-- STATUS.ERRCODE (60_exceptions.md R141): 0 is OK. -/
def CompletionCode.bits : CompletionCode → BitVec 4
  | .ok => 0
  | .error e => e.bits

/-- The completion code of a word that does not decode (30_encoding.md R76). -/
def errorOfDecode : DecodeError → ErrorCode
  | .opcode => .opcode
  | .field => .field

/-- STATUS.ERR reads 1 exactly when ERRCODE is not 0 (10_state.md R29). -/
def State.err (s : State) : Bool := s.errcode.bits != 0

/-- IRQ, a level equal at every moment to CTRL.IE AND STATUS.DONE (60_exceptions.md R145). -/
def State.irq (s : State) : Bool := s.ie && s.done

/-- ID (10_state.md R22). -/
def idWord : Word := Config.idMagic ++ Config.idVersion ++ 0#8

/-- PARAM (10_state.md R23). -/
def paramWord (s : State) : Word := 0#8 ++ BitVec.ofNat 8 Config.nregs ++ BitVec.ofNat 16 s.limbs

/-- CTRL as it reads (10_state.md R24 to R26): SOFT_RESET and the reserved bits read 0. -/
def ctrlWord (s : State) : Word := 0#31 ++ BitVec.ofBool s.ie

/-- STATUS as it reads (10_state.md R27 to R32). -/
def statusWord (s : State) : Word :=
  0#20 ++ s.errcode.bits ++ 0#4 ++ BitVec.ofBool s.drop ++ BitVec.ofBool s.err ++ BitVec.ofBool s.done ++ BitVec.ofBool s.busy

end Sys2Proof.Machine
end

