-- ==== Sys2Proof/Machine/Ops.lean ====
section
/-! DEFINITION. The named operations on the state: the register file, acceptance, completion, the error path and the resets. -/

namespace Sys2Proof.Machine

/-! ## Register file (10_state.md R20) -/

/-- `W`, the width of every big register (00_scope.md R6, R7). -/
def State.width (s : State) : Nat := 32 * s.limbs

/-- `B[k]`. -/
def State.reg (s : State) (k : RegIx) : Nat := s.regs.get k

/-- `B[k] <- v`, all `W` bits in one step. -/
def State.setReg (s : State) (k : RegIx) (v : Nat) : State := { s with regs := s.regs.set k.val v k.isLt }

/-- Limb `i` of a value as a bus word (20_memory.md R53, R54). -/
def limbWord (v i : Nat) : Word := BitVec.ofNat 32 (digitOf v i)

/-- The value with bits `32 i + 31 : 32 i` replaced (20_memory.md R53). -/
def replaceLimb (v i : Nat) (x : Word) : Nat :=
  v / 2 ^ (32 * (i + 1)) * 2 ^ (32 * (i + 1)) + x.toNat * 2 ^ (32 * i) + v % 2 ^ (32 * i)

/-! ## Acceptance (10_state.md R36, R37) -/

/-- The record of command `w` with the operand values its opcode uses; a command whose decode fails reads no register. -/
def latch (w : Word) (s : State) : Inflight :=
  match decode w with
  | .error _ => { word := w, va := none, vb := none, vn := none }
  | .ok i => { word := w, va := i.srcA?.map s.reg, vb := i.srcB?.map s.reg, vn := i.modulus?.map s.reg }

/-- The accepting branch of R37. -/
def accept (w : Word) (s : State) : State :=
  { s with
    cmd := w, busy := true, done := false, errcode := .ok,
    inflight := some (latch w s), engine := Engine.load s.limbs (latch w s) }

/-! ## Completion (10_state.md R38) and the error path (60_exceptions.md R140) -/

/-- The end of every command: STATUS is updated and nothing is in flight. -/
def finish (c : CompletionCode) (s : State) : State :=
  { s with busy := false, done := true, errcode := c, inflight := none, engine := .idle }

/-- `raise Err(code)`: the block's one exception operation (60_exceptions.md R140, R147). Only the code is recorded; no
big register changes, no control transfers. -/
def raiseErr (e : ErrorCode) (s : State) : State := finish (.error e) s

/-- `complete(code, dst, v)` for an opcode that writes a result (00_scope.md R12; 10_state.md R38). -/
def complete (rd : RegIx) (r : Except ErrorCode Nat) (s : State) : State :=
  match r with
  | .ok v => finish .ok (s.setReg rd v)
  | .error e => raiseErr e s

/-! ## Resets (70_reset_and_hazards.md R160, R161) -/

/-- What both resets do to the CSRs and to the command in flight.
DESIGN CHOICE (log entry 8): no unit holds a value after a reset; R160 and R161 do not name the engine-internal state. -/
def clearControl (s : State) : State :=
  { s with
    ie := false, busy := false, done := false, drop := false, errcode := .ok, cmd := 0, inflight := none, engine := .idle }

/-- Soft reset: big registers, ID and PARAM are unchanged. -/
def softReset (s : State) : State := clearControl s

/-- The big registers hold free `W`-bit values (10_state.md R21; log entry 3). -/
def drawRegs (s : State) : State :=
  { s with
    regs := Vector.ofFn fun k => Config.resetContents s.draws k % 2 ^ s.width
    draws := s.draws + 1 }

/-- `rst_n` goes low (R160, "while asserted"). -/
def assertReset (s : State) : State := { drawRegs (clearControl s) with rstLow := true }

/-- `rst_n` goes high (R160, "on deassertion"): the reset ends, with the registers' contents unspecified once more. -/
def releaseReset (s : State) : State := if s.rstLow then { drawRegs (clearControl s) with rstLow := false } else s

/-- One hidden turn of the engine's units (10_state.md R41). -/
def workStep (s : State) : State := { s with engine := Engine.work s.limbs s.engine }

end Sys2Proof.Machine
end

