-- ==== Sys2Proof/Machine/Bus.lean ====
section
/-! DEFINITION. The register bus: the address map, reads and writes (20_memory.md). -/

namespace Sys2Proof.Machine

/-- What lies at a word-aligned offset (20_memory.md R52). -/
inductive Place where
  | id
  | param
  | ctrl
  | status
  | cmd
  /-- Limb `i` of `Bk`, `i < L` (R53). -/
  | limb (k : RegIx) (i : Nat)
  /-- A window offset beyond the `L` limbs (R56). -/
  | unusedLimb
  /-- A reserved offset (R57). -/
  | reserved
deriving DecidableEq, Repr

/-- The address map (20_memory.md R52, R53). -/
def place (limbs : Nat) (off : Offset) : Place :=
  let o := off.toNat
  if o = 0x0000 then .id
  else if o = 0x0004 then .param
  else if o = 0x0008 then .ctrl
  else if o = 0x000C then .status
  else if o = 0x0010 then .cmd
  else if 0x1000 ≤ o ∧ o < 0x3000 then
    let i := (o - 0x1000) % 0x400 / 4
    if i < limbs then .limb (Fin.ofNat 8 ((o - 0x1000) / 0x400)) i else .unusedLimb
  else .reserved

/-- The offset of limb `i` of `Bk` (20_memory.md R53). -/
def limbOffset (k : RegIx) (i : Nat) : Offset := BitVec.ofNat 14 (0x1000 + 0x400 * k.val + 4 * i)

/-- The word a read returns; a read changes no state (20_memory.md R58). -/
def busRead (off : Offset) (s : State) : Word :=
  match place s.limbs off with
  | .id => idWord
  | .param => paramWord s
  | .ctrl => ctrlWord s
  | .status => statusWord s
  | .cmd => s.cmd
  | .limb k i => limbWord (s.reg k) i
  | .unusedLimb => 0
  | .reserved => 0

/-- A write of CTRL: SOFT_RESET wins over every other bit (10_state.md R24 to R26). -/
def writeCtrl (v : Word) (s : State) : State := if v.getLsbD 1 then softReset s else { s with ie := v.getLsbD 0 }

/-- A write of STATUS: DONE and DROP are cleared by writing 1 (10_state.md R28, R30, R32). -/
def writeStatus (v : Word) (s : State) : State :=
  { s with done := s.done && !v.getLsbD 1, drop := s.drop && !v.getLsbD 3 }

/-- A write that BUSY = 1 drops (10_state.md R30). -/
def dropWrite (s : State) : State := { s with drop := true }

/-- A write of CMD: acceptance, or dropped (10_state.md R37). -/
def writeCmd (v : Word) (s : State) : State := if s.busy then dropWrite s else accept v s

/-- A write of a limb, or dropped (20_memory.md R53, R60). -/
def writeLimb (k : RegIx) (i : Nat) (v : Word) (s : State) : State :=
  if s.busy then dropWrite s else s.setReg k (replaceLimb (s.reg k) i v)

/-- A write of one word to a block that is not held in reset (20_memory.md R59). -/
def busWrite (off : Offset) (v : Word) (s : State) : State :=
  match place s.limbs off with
  | .id => s
  | .param => s
  | .ctrl => writeCtrl v s
  | .status => writeStatus v s
  | .cmd => writeCmd v s
  | .limb k i => writeLimb k i v s
  | .unusedLimb => s
  | .reserved => s

/-- A write while `rst_n` is low (70_reset_and_hazards.md R160): every CSR stays at its reset value, so no field is set and
no command is accepted. DESIGN CHOICE (log entry 15): after the write of a limb the registers hold free values again. -/
def heldWrite (off : Offset) (s : State) : State :=
  match place s.limbs off with
  | .limb _ _ => drawRegs s
  | .id | .param | .ctrl | .status | .cmd | .unusedLimb | .reserved => s

/-- The host's write of one word, by the level of `rst_n`. -/
def hostWrite (off : Offset) (v : Word) (s : State) : State := if s.rstLow then heldWrite off s else busWrite off v s

/-- Byte lane `b` of a bus word carries bits `8 b + 7 : 8 b` (20_memory.md R55). -/
def byteLane (w : Word) (b : Fin 4) : Byte := w.extractLsb' (8 * b.val) 8

/-- The host's address of an offset (00_scope.md R9; 20_memory.md R50). -/
def hostAddress (off : Offset) : Nat := Config.base + off.toNat

end Sys2Proof.Machine
end

