-- ==== Sys2Proof/Machine/Operands.lean ====
section
/-! DEFINITION. The one operand form of the block: a whole big register latched at acceptance (30_encoding.md R71, R72;
10_state.md R36). A meaning reads its operands here and nowhere else. -/

namespace Sys2Proof.Machine

/-- A step of the machine. -/
abbrev Result := Host.Outcome State Fault Refusal

/-- A value of the record in flight. -/
def latched (field : Inflight → Option Nat) (s : State) (k : Nat → Result) : Result :=
  match s.inflight with
  | none => .fault .noCommandInFlight
  | some f =>
    match field f with
    | none => .fault .operandNotLatched
    | some v => k v

/-- `inflight.va`. -/
def operandA (s : State) (k : Nat → Result) : Result := latched Inflight.va s k

/-- `inflight.vb`. -/
def operandB (s : State) (k : Nat → Result) : Result := latched Inflight.vb s k

/-- `inflight.vn`. -/
def operandN (s : State) (k : Nat → Result) : Result := latched Inflight.vn s k

end Sys2Proof.Machine
end

