-- ==== Sys2Proof/Machine/Control.lean ====
section
/-! DEFINITION. NOP and MOV (40_control.md). -/

namespace Sys2Proof.Machine

/-- 40_control.md R90. -/
def execNop (s : State) : Result := .next (finish .ok s)

/-- 40_control.md R91. The source index chose what acceptance latched; the meaning reads the latched value. -/
def execMov (rd _ra : RegIx) (s : State) : Result :=
  operandA s fun a => .next (complete rd (.ok a) s)

end Sys2Proof.Machine
end

