-- ==== Sys2Proof/Machine/Euclid.lean ====
section
/-! DEFINITION. The extended-Euclidean engine: MODINV, MODRED (42_euclid.md). -/

namespace Sys2Proof.Machine

/-- 42_euclid.md R120; 90_conflicts.md C1 for `n = 1`. -/
def modinvResult (a n : Nat) : Except ErrorCode Nat :=
  if n = 0 then .error .modZero
  else if n = 1 then .error .notInv
  else if Nat.gcd a n ≠ 1 then .error .notInv
  else .ok (modInv a n)

/-- 42_euclid.md R122. -/
def modredResult (a n : Nat) : Except ErrorCode Nat := if n = 0 then .error .modZero else .ok (a % n)

/-- 42_euclid.md R120. -/
def execModinv (rd _ra _rn : RegIx) (s : State) : Result :=
  operandA s fun a => operandN s fun n => .next (complete rd (modinvResult a n) s)

/-- 42_euclid.md R122. -/
def execModred (rd _ra _rn : RegIx) (s : State) : Result :=
  operandA s fun a => operandN s fun n => .next (complete rd (modredResult a n) s)

end Sys2Proof.Machine
end

