-- ==== Sys2Proof/Machine/Montgomery.lean ====
section
/-! DEFINITION. The Montgomery multiplier: MONTMUL, TOMONT, FROMMONT, MODMUL (41_montgomery.md). -/

namespace Sys2Proof.Machine

/-- The modulus checks, in order, before any arithmetic (41_montgomery.md R100). -/
def withOddModulus (n : Nat) (r : Except ErrorCode Nat) : Except ErrorCode Nat :=
  if n = 0 then .error .modZero else if n % 2 = 0 then .error .modEven else r

/-- `Rinv = inv(R mod n, n)` for odd `n >= 3` (41_montgomery.md R100). -/
def radixInv (limbs n : Nat) : Nat := modInv (radix limbs % n) n

/-- 41_montgomery.md R101. -/
def montmulResult (limbs a b n : Nat) : Except ErrorCode Nat :=
  withOddModulus n (if b ≥ n then .error .range else if n = 1 then .ok 0 else .ok (a * b * radixInv limbs n % n))

/-- 41_montgomery.md R103. -/
def tomontResult (limbs a n : Nat) : Except ErrorCode Nat := withOddModulus n (.ok (a * radix limbs % n))

/-- 41_montgomery.md R104. -/
def frommontResult (limbs a n : Nat) : Except ErrorCode Nat :=
  withOddModulus n (if n = 1 then .ok 0 else .ok (a * radixInv limbs n % n))

/-- 41_montgomery.md R105. -/
def modmulResult (a b n : Nat) : Except ErrorCode Nat := withOddModulus n (.ok (a * b % n))

/-- 41_montgomery.md R101. -/
def execMontmul (rd _ra _rb _rn : RegIx) (s : State) : Result :=
  operandA s fun a => operandB s fun b => operandN s fun n => .next (complete rd (montmulResult s.limbs a b n) s)

/-- 41_montgomery.md R103. -/
def execTomont (rd _ra _rn : RegIx) (s : State) : Result :=
  operandA s fun a => operandN s fun n => .next (complete rd (tomontResult s.limbs a n) s)

/-- 41_montgomery.md R104. -/
def execFrommont (rd _ra _rn : RegIx) (s : State) : Result :=
  operandA s fun a => operandN s fun n => .next (complete rd (frommontResult s.limbs a n) s)

/-- 41_montgomery.md R105. -/
def execModmul (rd _ra _rb _rn : RegIx) (s : State) : Result :=
  operandA s fun a => operandB s fun b => operandN s fun n => .next (complete rd (modmulResult a b n) s)

end Sys2Proof.Machine
end

