-- ==== Sys2Proof/Machine/Modexp.lean ====
section
/-! DEFINITION. The exponentiation pipeline: MODEXP (43_modexp.md). -/

namespace Sys2Proof.Machine

/-- 43_modexp.md R130. -/
def modexpResult (base e n : Nat) : Except ErrorCode Nat :=
  withOddModulus n (if n = 1 then .ok 0 else .ok (powMod base e n))

/-- 43_modexp.md R130. -/
def execModexp (rd _ra _rb _rn : RegIx) (s : State) : Result :=
  operandA s fun base => operandB s fun e => operandN s fun n => .next (complete rd (modexpResult base e n) s)

end Sys2Proof.Machine
end

