-- ==== Sys2Proof/Machine/Dispatch.lean ====
section
/-! DEFINITION. The meaning of each command at its completion step (30_encoding.md R76 `execute`, 10_state.md R38). -/

namespace Sys2Proof.Machine

def exec (i : Instr) (s : State) : Host.Outcome State Fault Refusal :=
  match i with
  | .nop => Sys2Proof.Machine.execNop s
  | .mov rd ra => Sys2Proof.Machine.execMov rd ra s
  | .montmul rd ra rb rn => Sys2Proof.Machine.execMontmul rd ra rb rn s
  | .tomont rd ra rn => Sys2Proof.Machine.execTomont rd ra rn s
  | .frommont rd ra rn => Sys2Proof.Machine.execFrommont rd ra rn s
  | .modmul rd ra rb rn => Sys2Proof.Machine.execModmul rd ra rb rn s
  | .modinv rd ra rn => Sys2Proof.Machine.execModinv rd ra rn s
  | .modred rd ra rn => Sys2Proof.Machine.execModred rd ra rn s
  | .modexp rd ra rb rn => Sys2Proof.Machine.execModexp rd ra rb rn s

end Sys2Proof.Machine
end

