-- ==== Sys2Proof/Machine/Turns.lean ====
section
/-! DEFINITION. What each agent does when it is its turn (00_scope.md R13). -/

namespace Sys2Proof.Machine

/-- Whose turn it is. An exhausted schedule gives a command in flight its completion (70_reset_and_hazards.md R169). -/
def State.mover (s : State) : Turn :=
  match s.schedule with
  | t :: _ => t
  | [] => if s.busy then .engine else .host

/-- The turn is taken. -/
def State.advance (s : State) : State := { s with schedule := s.schedule.tail }

/-- The completion step, enabled exactly when BUSY = 1 (10_state.md R38); otherwise the turn passes (log entry 5).
A word that does not decode completes with its error (30_encoding.md R77). -/
def engineTurn (s : State) : Result :=
  if s.busy then
    match s.inflight with
    | none => .fault .noCommandInFlight
    | some f =>
      match decode f.word with
      | .error e => .next (raiseErr (errorOfDecode e) s)
      | .ok i => exec i s
  else .next s

/-- The bus returns word `w` to the host. -/
def deliver (w : Word) (s : State) : State := { s with hostReads := w :: s.hostReads }

/-- The offset of STATUS (20_memory.md R52). -/
def statusOffset : Offset := 0x00C

/-- The host's next operation (20_memory.md R51, R63); with none left the turn passes (log entry 5). The bus answers while
`rst_n` is low as well (log entry 15). -/
def hostTurn (s : State) : Result :=
  match s.hostOps with
  | [] => .next s
  | .read a :: rest =>
    if a.wf then .next (deliver (busRead a.offset s) { s with hostOps := rest }) else .refused (.accessNotDefined a)
  | .write a v :: rest =>
    if a.wf then .next (hostWrite a.offset v { s with hostOps := rest }) else .refused (.accessNotDefined a)
  | .poll :: rest =>
    let w := busRead statusOffset s
    .next (deliver w { s with hostOps := if w.getLsbD 0 then .poll :: rest else rest })

/-- One turn. -/
def takeTurn (t : Turn) (s : State) : Result :=
  match t with
  | .host => hostTurn s
  | .engine => engineTurn s
  | .work => .next (workStep s)
  | .resetLow => .next (assertReset s)
  | .resetHigh => .next (releaseReset s)

end Sys2Proof.Machine
end

