-- ==== Sys2Proof/Machine/Step.lean ====
section
/-! DEFINITION. One step of the machine, and the placing of a command word where the next step runs it. -/

namespace Sys2Proof.Machine

/-- The agent whose turn it is takes one step (00_scope.md R13). -/
def step (s : State) : Host.Outcome State Fault Refusal := takeTurn s.mover s.advance

/-- The command word `w` accepted (10_state.md R37) with `rst_n` high and the engine to move next: the block fetches nothing, so a command is
placed by accepting it (20_memory.md R67; log entry 12). -/
def State.withFetchWord (s : State) (nbits w : Nat) : State :=
  { accept (BitVec.ofNat 32 (w % 2 ^ nbits)) s with schedule := .engine :: s.schedule, rstLow := false }

end Sys2Proof.Machine
end

