-- ==== Sys2Proof/Machine/Assembler.lean ====
section
/-! DEFINITION. The assembler and the disassembler (30_encoding.md R79, R80, R82), on texts as lists of characters. -/

namespace Sys2Proof.Machine

def mnemonicOf : Opcode → List Char
  | .nop => ['N', 'O', 'P']
  | .mov => ['M', 'O', 'V']
  | .montmul => ['M', 'O', 'N', 'T', 'M', 'U', 'L']
  | .tomont => ['T', 'O', 'M', 'O', 'N', 'T']
  | .frommont => ['F', 'R', 'O', 'M', 'M', 'O', 'N', 'T']
  | .modmul => ['M', 'O', 'D', 'M', 'U', 'L']
  | .modinv => ['M', 'O', 'D', 'I', 'N', 'V']
  | .modred => ['M', 'O', 'D', 'R', 'E', 'D']
  | .modexp => ['M', 'O', 'D', 'E', 'X', 'P']

def modsqrName : List Char := ['M', 'O', 'D', 'S', 'Q', 'R']
def montsqrName : List Char := ['M', 'O', 'N', 'T', 'S', 'Q', 'R']
def rsaapplyName : List Char := ['R', 'S', 'A', 'A', 'P', 'P', 'L', 'Y']

/-- The digits 0 to 9 and A to F.
DESIGN CHOICE (log entry 19): upper case; 30_encoding.md R82 does not state the case of the digits. -/
def hexDigit (d : BitVec 4) : Char :=
  if d.toNat < 10 then Char.ofNat (48 + d.toNat) else Char.ofNat (55 + d.toNat)

/-! ## Disassembler -/

/-- `B0` to `B7`. -/
def printReg (k : RegIx) : List Char := ['B', Char.ofNat (48 + k.val)]

/-- The operands in the order RD, RA, RB, RN, separated by commas (30_encoding.md R79). -/
def printOperands : List RegIx → List Char
  | [] => []
  | [k] => printReg k
  | k :: ks => printReg k ++ [',', ' '] ++ printOperands ks

/-- The used operands in the order RD, RA, RB, RN. -/
def operandsOf (i : Instr) : List RegIx :=
  i.dest?.toList ++ i.srcA?.toList ++ i.srcB?.toList ++ i.modulus?.toList

def printInstr (i : Instr) : List Char :=
  mnemonicOf i.opcode ++ (if operandsOf i = [] then [] else [' ']) ++ printOperands (operandsOf i)

/-- The eight hexadecimal digits of a word. -/
def printHex (w : Word) : List Char :=
  [7, 6, 5, 4, 3, 2, 1, 0].map fun j => hexDigit (w.extractLsb' (4 * j) 4)

/-- A word that decodes with the syntax of R79, any other as `.word 0xHHHHHHHH` (30_encoding.md R82). -/
def disassemble (w : Word) : List Char :=
  match decode w with
  | .ok i => printInstr i
  | .error _ => ['.', 'w', 'o', 'r', 'd', ' ', '0', 'x'] ++ printHex w

/-! ## Assembler: case-insensitive; spaces around an operand are allowed (log entry 19) -/

/-- The text without its leading spaces. -/
def dropSpaces : List Char → List Char
  | [] => []
  | c :: cs => if c = ' ' then dropSpaces cs else c :: cs

/-- The text without the spaces at its ends. -/
def trimSpaces (cs : List Char) : List Char := (dropSpaces (dropSpaces cs).reverse).reverse

/-- The pieces of a text between commas; always at least one. -/
def splitCommas : List Char → List (List Char)
  | [] => [[]]
  | c :: cs =>
    match splitCommas cs with
    | [] => [[]]
    | p :: ps => if c = ',' then [] :: p :: ps else (c :: p) :: ps

/-- A register name, in upper case. -/
def parseReg (cs : List Char) : Option RegIx := (List.finRange 8).find? fun k => printReg k == trimSpaces cs

/-- All the pieces as register names, or nothing. -/
def parseRegs : List (List Char) → Option (List RegIx)
  | [] => some []
  | p :: ps =>
    match parseReg p, parseRegs ps with
    | some k, some ks => some (k :: ks)
    | _, _ => none

/-- The command of a mnemonic and its operands, pseudo-instructions expanded (30_encoding.md R79, R80). -/
def buildInstr (name : List Char) (ks : List RegIx) : Option Instr :=
  match ks with
  | [] => if name = mnemonicOf .nop then some .nop else none
  | [d, a] => if name = mnemonicOf .mov then some (.mov d a) else none
  | [d, a, n] =>
    if name = mnemonicOf .tomont then some (.tomont d a n)
    else if name = mnemonicOf .frommont then some (.frommont d a n)
    else if name = mnemonicOf .modinv then some (.modinv d a n)
    else if name = mnemonicOf .modred then some (.modred d a n)
    else if name = modsqrName then some (Pseudo.expand (.modsqr d a n))
    else if name = montsqrName then some (Pseudo.expand (.montsqr d a n))
    else none
  | [d, a, b, n] =>
    if name = mnemonicOf .montmul then some (.montmul d a b n)
    else if name = mnemonicOf .modmul then some (.modmul d a b n)
    else if name = mnemonicOf .modexp then some (.modexp d a b n)
    else if name = rsaapplyName then some (Pseudo.expand (.rsaapply d a b n))
    else none
  | _ => none

/-- The first word of a text. -/
def firstWord : List Char → List Char
  | [] => []
  | c :: cs => if c = ' ' then [] else c :: firstWord cs

/-- The text after its first word. -/
def afterFirstWord : List Char → List Char
  | [] => []
  | c :: cs => if c = ' ' then cs else afterFirstWord cs

/-- One line of assembler text as a command (30_encoding.md R79). -/
def assemble (text : List Char) : Option Instr :=
  let cs := trimSpaces (text.map Char.toUpper)
  let rest := trimSpaces (afterFirstWord cs)
  match if rest = [] then some [] else parseRegs (splitCommas rest) with
  | some ks => buildInstr (firstWord cs) ks
  | none => none

end Sys2Proof.Machine
end

