-- ==== Sys2Proof/Machine/Script.lean ====
section
/-! DEFINITION. The host-script lines of 30_encoding.md R81 as sequences of bus operations, and the conversion of a
key-layout magnitude into limbs (20_memory.md R69). -/

namespace Sys2Proof.Machine

/-- One line of a host script. -/
inductive ScriptLine where
  | wr (off : Offset) (v : Word)
  | rd (off : Offset)
  | ldb (k : RegIx) (v : Nat)
  | stb (k : RegIx)
  | cmd (i : Instr)
  | wait
deriving DecidableEq, Repr

/-- The defined read of a word (00_scope.md R12 `MemRead`). -/
def memRead (off : Offset) : BusOp := .read { offset := off, bytes := 4 }

/-- The defined write of a word (00_scope.md R12 `MemWrite`). -/
def memWrite (off : Offset) (v : Word) : BusOp := .write { offset := off, bytes := 4 } v

/-- The offset of CMD (20_memory.md R52). -/
def cmdOffset : Offset := 0x010

/-- The host operations of a line on a block of `limbs` limbs (30_encoding.md R81). -/
def ScriptLine.ops (limbs : Nat) : ScriptLine → List BusOp
  | .wr off v => [memWrite off v]
  | .rd off => [memRead off]
  | .ldb k v => (List.range limbs).map fun i => memWrite (limbOffset k i) (limbWord v i)
  | .stb k => (List.range limbs).map fun i => memRead (limbOffset k i)
  | .cmd i => [memWrite cmdOffset (encode i)]
  | .wait => [.poll]

/-- The value `stb` binds: the words read, limb 0 first, summed by weight (30_encoding.md R81). -/
def valueOfLimbs : List Word → Nat
  | [] => 0
  | w :: ws => w.toNat + 2 ^ 32 * valueOfLimbs ws

/-- A big-endian unsigned magnitude as a number: `sum over j of b[j] * 256^(m-1-j)` (20_memory.md R69). -/
def magnitudeValue (bytes : List Byte) : Nat := bytes.foldl (fun x b => x * 256 + b.toNat) 0

/-- The limbs a host writes for a magnitude, if its value fits the block (20_memory.md R69). -/
def magnitudeLimbs (limbs : Nat) (bytes : List Byte) : Option (List Word) :=
  if magnitudeValue bytes < radix limbs then some ((List.range limbs).map (limbWord (magnitudeValue bytes))) else none

end Sys2Proof.Machine
end

