-- ==== Sys2Proof/Safety.lean ====
section
/-! DEFINITION. What a legal state is, in the terms the statements use. -/

namespace Sys2Proof.Machine

/-- `2 <= L <= 256` (00_scope.md R6, R7). -/
abbrev State.LegalWidth (s : State) : Prop := legalLimbs s.limbs

/-- `0 <= B[k] < 2^W` (10_state.md R20). -/
abbrev State.RegistersFit (s : State) : Prop := ∀ k : RegIx, s.reg k < 2 ^ s.width

/-- A command is in flight exactly when BUSY = 1 (10_state.md R36); its word is the one in CMD (R33), and the values it
latched are those its source registers still hold, because writes are dropped while BUSY = 1 (20_memory.md R60, R67). -/
abbrev State.FlightMatches (s : State) : Prop := s.inflight = if s.busy then some (latch s.cmd s) else none

/-- While a command is in flight DONE and ERRCODE are clear (10_state.md R28, R31, R37; 70_reset_and_hazards.md R168). -/
abbrev State.StatusFresh (s : State) : Prop := s.busy = true → s.done = false ∧ s.errcode = .ok

/-- No engine-internal state survives a completion (10_state.md R41). -/
abbrev State.EngineRests (s : State) : Prop := s.busy = false → s.engine = .idle

/-- While `rst_n` is low every CSR is at its reset value and no command is in flight (70_reset_and_hazards.md R160). -/
abbrev State.ResetHolds (s : State) : Prop :=
  s.rstLow = true → s.ie = false ∧ s.busy = false ∧ s.done = false ∧ s.drop = false ∧ s.errcode = .ok ∧ s.cmd = 0

/-- The invariant of every run. -/
abbrev State.Inv (s : State) : Prop :=
  s.LegalWidth ∧ s.RegistersFit ∧ s.FlightMatches ∧ s.StatusFresh ∧ s.EngineRests ∧ s.ResetHolds

/-- A state in which the next step is one the spec defines: it is not the host's turn with an access that is not an
aligned 32-bit one at the head of its operations (20_memory.md R51). -/
abbrev State.HostBehaves (s : State) : Prop :=
  s.mover = .host → ∀ op ∈ s.hostOps.head?, op.wf = true

/-- The next step is the host's write of `v` at `off`, with `rst_n` high. -/
abbrev State.HostWrites (s : State) (off : Offset) (v : Word) : Prop :=
  s.mover = .host ∧ s.rstLow = false ∧ s.hostOps.head? = some (.write ⟨off, 4⟩ v)

/-- The next step is an edge of a hardware reset: its assertion, or its release (70_reset_and_hazards.md R160). -/
abbrev State.HardwareResets (s : State) : Prop := s.mover = .resetLow ∨ (s.mover = .resetHigh ∧ s.rstLow = true)

/-- The engine-internal state is what some number of hidden turns has made of what acceptance loaded (10_state.md R41). -/
abbrev State.EngineTracks (s : State) : Prop :=
  s.busy = true → ∃ k, s.engine = Engine.workFor s.limbs k (Engine.load s.limbs (latch s.cmd s))

/-! ## The states the rules describe, written out field by field -/

/-- `s` after a successful completion that writes `v` to `B[rd]` (10_state.md R38). -/
def afterResult (rd : RegIx) (v : Nat) (s : State) : State :=
  { s with
    regs := s.regs.set rd.val v rd.isLt, busy := false, done := true, errcode := .ok, inflight := none, engine := .idle }

/-- `s` after a successful completion that writes no register (10_state.md R38; 40_control.md R90). -/
def afterNothing (s : State) : State :=
  { s with busy := false, done := true, errcode := .ok, inflight := none, engine := .idle }

/-- `s` after a completion with an error (60_exceptions.md R140). -/
def afterError (e : ErrorCode) (s : State) : State :=
  { s with busy := false, done := true, errcode := .error e, inflight := none, engine := .idle }

/-- `s` after a reset of the CSRs, its registers aside (70_reset_and_hazards.md R160, R161). -/
def afterClear (s : State) : State :=
  { s with
    ie := false, busy := false, done := false, drop := false, errcode := .ok, cmd := 0, inflight := none, engine := .idle }

/-- `s` after acceptance of a word, with the record given (10_state.md R37). -/
def afterAccept (f : Inflight) (s : State) : State :=
  { s with
    cmd := f.word, busy := true, done := false, errcode := .ok, inflight := some f, engine := Engine.load s.limbs f }

/-- The outcome of a step, engine-internal state left out of sight (10_state.md R41). -/
def forgetEngine : Result → Result
  | .next s => .next { s with engine := .idle }
  | .fault r => .fault r
  | .refused r => .refused r

end Sys2Proof.Machine
end

