-- ==== Sys2Proof/Certificates/Slice0/Obligations.lean ====
section
/-! DEFINITION. The statements about the model, each from a rule of spec/ named in its docstring. -/

open Sys2Proof Sys2Proof.Machine

/-! ## Encoding -/

/-- 30_encoding.md R70 to R76: every command's word decodes to it. -/
def Obligations.EveryCommandWordDecodesToIt : Prop := ∀ i : Instr, decode (encode i) = .ok i

/-- 30_encoding.md R70 to R77: a word that decodes is the one word of its command; no bit is ignored. -/
def Obligations.EveryDecodedWordIsTheEncodingOfIt : Prop := ∀ (w : Word) (i : Instr), decode w = .ok i → encode i = w

/-- spec/opcode_table.json: a row's mask and match say exactly which words are that row's command. -/
def Obligations.TableRowsSelectTheirCommands : Prop :=
  ∀ (w : Word) (op : Opcode), w &&& op.tableMask = op.tableMatch ↔ ∃ i, decode w = .ok i ∧ i.opcode = op

/-- 30_encoding.md R76, 60_exceptions.md R143: the opcode check comes first; a field error is a defined opcode whose word
is not its row's. -/
def Obligations.DecodeErrorsAreExact : Prop :=
  ∀ w : Word,
    (decode w = .error .opcode ↔ ∀ op : Opcode, op.code ≠ w.extractLsb' 0 8) ∧
    (decode w = .error .field ↔ ∃ op : Opcode, op.code = w.extractLsb' 0 8 ∧ w &&& op.tableMask ≠ op.tableMatch)

/-- Words written out from 30_encoding.md R70 and R73. -/
def Obligations.SampleWordsDecode : Prop :=
  decode 0b00000000000000000000000000000000#32 = .ok .nop ∧
  decode 0b00000000000000000111010100000001#32 = .ok (.mov 5 7) ∧
  decode 0b00000000011100010010001100010000#32 = .ok (.montmul 3 2 1 7) ∧
  decode 0b00000000010000000110000000100000#32 = .ok (.modinv 0 6 4) ∧
  decode 0b00000000001000010000010000110000#32 = .ok (.modexp 4 0 1 2)

/-- 30_encoding.md R79, R82: the assembler reads back what the disassembler prints of a word that decodes. -/
def Obligations.AssemblerReadsBackDisassembly : Prop :=
  ∀ (w : Word) (i : Instr), decode w = .ok i → (assemble (disassemble w)).map encode = some w

/-- 30_encoding.md R79: mnemonics and register names are case-insensitive. -/
def Obligations.AssemblerIgnoresCase : Prop := ∀ text : List Char, assemble (text.map Char.toLower) = assemble text

/-! ## Steps -/

/-- 10_state.md R38, 30_encoding.md R76: the engine's turn on a command that decodes is `exec` of it, the turn taken, and
is enabled only when BUSY = 1. -/
def Obligations.EngineStepRunsTheDecodedCommand : Prop :=
  ∀ (s : State) (f : Inflight) (i : Instr), s.mover = .engine →
    (s.busy = true → s.inflight = some f → decode f.word = .ok i → step s = exec i s.advance) ∧
    (s.busy = false → step s = .next { s with schedule := s.schedule.tail })

/-- 30_encoding.md R77, 60_exceptions.md R140: a word that does not decode completes with its error and changes nothing else. -/
def Obligations.UndecodableCommandCompletesWithItsError : Prop :=
  ∀ (s : State) (f : Inflight),
    s.mover = .engine → s.busy = true → s.inflight = some f →
    (decode f.word = .error .opcode → step s = .next (afterError .opcode s.advance)) ∧
    (decode f.word = .error .field → step s = .next (afterError .field s.advance))

/-- 20_memory.md R67, 10_state.md R37: a command word placed by `withFetchWord` is accepted with the values its sources
hold, and the next step runs it. -/
def Obligations.PlacedCommandRunsNext : Prop :=
  ∀ (s : State) (i : Instr),
    step (s.withFetchWord 32 (encode i).toNat) =
      exec i (afterAccept
        { word := encode i, va := i.srcA?.map s.reg, vb := i.srcB?.map s.reg, vn := i.modulus?.map s.reg }
        { s with rstLow := false })

/-- 20_memory.md R51: only an aligned 32-bit access is defined; the model refuses any other and performs every defined one
(a write while `rst_n` is low is in `HardwareResetClearsTheControlState`). That a defined access is performed while `rst_n`
is low as well is the model's choice (log entry 15). -/
def Obligations.OnlyAlignedWordAccessesArePerformed : Prop :=
  ∀ (s : State) (a : Access) (v : Word) (rest : List BusOp), s.mover = .host →
    (s.hostOps = .read a :: rest →
      (¬ (a.bytes = 4 ∧ a.offset.toNat % 4 = 0) → step s = .refused (.accessNotDefined a)) ∧
      (a.bytes = 4 ∧ a.offset.toNat % 4 = 0 → ∃ t, step s = .next t)) ∧
    (s.hostOps = .write a v :: rest →
      (¬ (a.bytes = 4 ∧ a.offset.toNat % 4 = 0) → step s = .refused (.accessNotDefined a)) ∧
      (a.bytes = 4 ∧ a.offset.toNat % 4 = 0 → ∃ t, step s = .next t ∧
        (s.rstLow = false → t = busWrite a.offset v { s.advance with hostOps := rest })))

/-- 20_memory.md R58: a read changes no state of the block, and the next read of any offset returns what it returned. That the read is
answered while `rst_n` is low as well is the model's choice (log entry 15). -/
def Obligations.ReadsHaveNoSideEffects : Prop :=
  ∀ (s : State) (off : Offset) (rest : List BusOp),
    s.mover = .host → off.toNat % 4 = 0 → s.hostOps = memRead off :: rest →
    ∃ t, step s = .next t ∧
      t = { s with schedule := s.schedule.tail, hostOps := rest, hostReads := busRead off s :: s.hostReads } ∧
      ∀ off' : Offset, busRead off' t = busRead off' s

/-- 30_encoding.md R81 `wait`: each poll reads STATUS, and the line ends with the first read that shows BUSY clear. That
a poll is answered while `rst_n` is low as well is the model's choice (log entry 15). -/
def Obligations.WaitPollsUntilBusyIsClear : Prop :=
  ∀ (s : State) (rest : List BusOp), s.mover = .host → s.hostOps = .poll :: rest →
    step s = .next
      { s with
        schedule := s.schedule.tail
        hostOps := if s.busy then .poll :: rest else rest
        hostReads := statusWord s :: s.hostReads }

/-! ## Register bus -/

/-- 20_memory.md R52, R53; 10_state.md R22 to R26, R33: what a read returns at each used offset. -/
def Obligations.ReadsFollowTheAddressMap : Prop :=
  ∀ s : State, s.LegalWidth →
    busRead 0x000 s = 0x4D410100 ∧
    busRead 0x004 s = BitVec.ofNat 32 (s.limbs + 8 * 2 ^ 16) ∧
    busRead 0x008 s = (if s.ie then 1 else 0) ∧
    busRead 0x00C s = statusWord s ∧
    busRead 0x010 s = s.cmd ∧
    ∀ (k : RegIx) (i : Nat), i < s.limbs →
      busRead (BitVec.ofNat 14 (0x1000 + 0x400 * k.val + 4 * i)) s = BitVec.ofNat 32 (s.reg k / 2 ^ (32 * i))

/-- 10_state.md R27 to R32: the bits of STATUS; ERRCODE 7 to 15 never appears. -/
def Obligations.StatusWordShowsItsFields : Prop :=
  ∀ s : State,
    (statusWord s).getLsbD 0 = s.busy ∧ (statusWord s).getLsbD 1 = s.done ∧
    ((statusWord s).getLsbD 2 = true ↔ (statusWord s).extractLsb' 8 4 ≠ 0) ∧
    (statusWord s).getLsbD 3 = s.drop ∧
    (statusWord s).extractLsb' 4 4 = 0 ∧ (statusWord s).extractLsb' 12 20 = 0 ∧
    (statusWord s).extractLsb' 8 4 = s.errcode.bits ∧ ((statusWord s).extractLsb' 8 4).toNat ≤ 6

/-- 20_memory.md R56, R57: window offsets beyond the limbs and reserved offsets read 0 and ignore writes; an access to one
is no error and leaves DROP alone. That the access is performed while `rst_n` is low as well is the model's choice (log
entry 15). -/
def Obligations.UnusedOffsetsReadZeroAndIgnoreWrites : Prop :=
  ∀ (s : State) (off : Offset) (v : Word), off.toNat % 4 = 0 →
    ((0x0014 ≤ off.toNat ∧ off.toNat ≤ 0x0FFF) ∨ 0x3000 ≤ off.toNat ∨
      (∃ (k : RegIx) (i : Nat), s.limbs ≤ i ∧ i < 256 ∧ off.toNat = 0x1000 + 0x400 * k.val + 4 * i)) →
    busRead off s = 0 ∧ busWrite off v s = s ∧
    ∀ rest, s.mover = .host → (s.hostOps = memRead off :: rest ∨ s.hostOps = memWrite off v :: rest) →
      ∃ t, step s = .next t ∧ t.drop = s.drop

/-- 20_memory.md R53, R60: a limb write replaces the limb's bits while BUSY = 0, and is dropped while BUSY = 1. -/
def Obligations.LimbWriteReplacesItsBitsOrIsDropped : Prop :=
  ∀ (s : State) (k : RegIx) (i : Nat) (v : Word), s.LegalWidth → i < s.limbs →
    (s.busy = true → busWrite (BitVec.ofNat 14 (0x1000 + 0x400 * k.val + 4 * i)) v s = { s with drop := true }) ∧
    (s.busy = false → ∃ x : Nat,
      busWrite (BitVec.ofNat 14 (0x1000 + 0x400 * k.val + 4 * i)) v s = { s with regs := s.regs.set k.val x k.isLt } ∧
      ∀ b : Nat, x.testBit b =
        if 32 * i ≤ b ∧ b < 32 * i + 32 then v.getLsbD (b - 32 * i) else (s.reg k).testBit b)

/-- 20_memory.md R52, 10_state.md R22, R23: ID and PARAM ignore writes. -/
def Obligations.ReadOnlyRegistersIgnoreWrites : Prop :=
  ∀ (s : State) (v : Word), busWrite 0x000 v s = s ∧ busWrite 0x004 v s = s

/-- 10_state.md R28, R30, R32: a write of STATUS clears DONE by bit 1 and DROP by bit 3 and changes nothing else. -/
def Obligations.StatusWriteClearsDoneAndDropOnly : Prop :=
  ∀ (s : State) (v : Word),
    busWrite 0x00C v s =
      { s with
        done := if v.getLsbD 1 then false else s.done
        drop := if v.getLsbD 3 then false else s.drop }

/-- 10_state.md R24, R25: a write of CTRL with bit 1 set is a soft reset whatever its other bits; with bit 1 clear it
writes IE and nothing else; SOFT_RESET reads 0. -/
def Obligations.CtrlWriteSetsEnableOrSoftResets : Prop :=
  ∀ (s : State) (v : Word),
    (v.getLsbD 1 = true → busWrite 0x008 v s = afterClear s) ∧
    (v.getLsbD 1 = false → busWrite 0x008 v s = { s with ie := v.getLsbD 0 }) ∧
    (busRead 0x008 s).getLsbD 1 = false

/-- 10_state.md R37: a CMD write is accepted when the block is idle, whatever the word, with the values its sources hold,
and dropped when it is busy. -/
def Obligations.CommandWriteIsAcceptedOrDropped : Prop :=
  ∀ (s : State) (w : Word),
    (s.busy = true → busWrite 0x010 w s = { s with drop := true }) ∧
    (s.busy = false →
      (∀ i, decode w = .ok i → busWrite 0x010 w s =
        afterAccept { word := w, va := i.srcA?.map s.reg, vb := i.srcB?.map s.reg, vn := i.modulus?.map s.reg } s) ∧
      (∀ e, decode w = .error e → busWrite 0x010 w s = afterAccept { word := w, va := none, vb := none, vn := none } s))

/-- 20_memory.md R61: while a command is in flight its destination still reads as before its acceptance. -/
def Obligations.RegistersReadUnchangedUntilCompletion : Prop :=
  ∀ (s t : State) (k : RegIx) (i : Nat), s.Inv → s.busy = true → i < s.limbs → step s = .next t → t.busy = true →
    busRead (BitVec.ofNat 14 (0x1000 + 0x400 * k.val + 4 * i)) t =
      busRead (BitVec.ofNat 14 (0x1000 + 0x400 * k.val + 4 * i)) s

/-- 30_encoding.md R81 `ldb`: its `L` writes load the whole value and nothing else. -/
def Obligations.LoadLineLoadsTheRegister : Prop :=
  ∀ (s : State) (k : RegIx) (v : Nat) (rest : List BusOp), s.LegalWidth → s.RegistersFit → v < 2 ^ s.width →
    s.busy = false → s.rstLow = false → s.schedule = [] → s.hostOps = (ScriptLine.ldb k v).ops s.limbs ++ rest →
    Host.Core.run core s.limbs s = .next { s with regs := s.regs.set k.val v k.isLt, hostOps := rest }

/-- 30_encoding.md R81 `stb`: its `L` reads return the register's limbs, limb 0 first, and their weighted sum is its value. That they
are answered while `rst_n` is low as well is the model's choice (log entry 15). -/
def Obligations.StoreLineReadsTheRegister : Prop :=
  ∀ (s : State) (k : RegIx) (rest : List BusOp), s.LegalWidth → s.RegistersFit →
    s.busy = false → s.schedule = [] → s.hostOps = (ScriptLine.stb k).ops s.limbs ++ rest →
    ∃ ws : List Word, ws.length = s.limbs ∧ valueOfLimbs ws = s.reg k ∧
      Host.Core.run core s.limbs s = .next { s with hostReads := ws.reverse ++ s.hostReads, hostOps := rest }

/-- 20_memory.md R69: the value of a magnitude is the weighted sum of its bytes; a magnitude that fits becomes `L` limbs of its value; one that does not fit becomes none. -/
def Obligations.KeyMagnitudeBecomesItsLimbs : Prop :=
  ∀ (limbs : Nat) (b : Byte) (bytes : List Byte),
    magnitudeValue [] = 0 ∧
    magnitudeValue (b :: bytes) = b.toNat * 256 ^ bytes.length + magnitudeValue bytes ∧
    (magnitudeValue bytes < 2 ^ (32 * limbs) →
      ∃ ws, magnitudeLimbs limbs bytes = some ws ∧ ws.length = limbs ∧ valueOfLimbs ws = magnitudeValue bytes) ∧
    (2 ^ (32 * limbs) ≤ magnitudeValue bytes → magnitudeLimbs limbs bytes = none)

/-! ## Commands: each statement is the whole next state, so everything it does not name is unchanged -/

/-- 40_control.md R90. -/
def Obligations.NopCompletesAndWritesNothing : Prop :=
  ∀ s : State,
    encode .nop = 0 ∧
    exec .nop s = .next (afterNothing s) ∧
    (afterNothing s).irq = s.ie ∧
    (s.busy = false → busWrite 0x010 0 s = afterAccept { word := 0, va := none, vb := none, vn := none } s) ∧
    (s.busy = true → busWrite 0x010 0 s = { s with drop := true }) ∧
    ∀ w : Word, w.extractLsb' 0 8 = 0 → (decode w = .error .field ↔ w ≠ 0)

/-- 40_control.md R91; with RD = RA, in a legal state, no register changes. -/
def Obligations.MovCopiesTheRegister : Prop :=
  ∀ (s : State) (w : Word) (a : Nat) (vb vn : Option Nat) (rd ra : RegIx),
    encode (.mov rd ra) = 0x01 ||| BitVec.ofNat 32 rd.val <<< 8 ||| BitVec.ofNat 32 ra.val <<< 12 ∧
    (s.inflight = some ⟨w, some a, vb, vn⟩ → exec (.mov rd ra) s = .next (afterResult rd a s)) ∧
    (s.Inv → s.busy = true → s.cmd = encode (.mov rd rd) → exec (.mov rd rd) s = .next (afterNothing s)) ∧
    ∀ u : Word, u.extractLsb' 0 8 = 0x01 → (decode u = .error .field ↔ u &&& 0xFFFF8800 ≠ 0)

/-- 41_montgomery.md R101 with the checks of R100: `(a * b * Rinv) mod n` where `Rinv` is the inverse of `R = 2^W`
modulo `n`, the errors in their order, and the word. -/
def Obligations.MontmulGivesTheMontgomeryProduct : Prop :=
  ∀ (s : State) (w : Word) (a b n : Nat) (rd ra rb rn : RegIx), s.inflight = some ⟨w, some a, some b, some n⟩ →
    (n = 0 → exec (.montmul rd ra rb rn) s = .next (afterError .modZero s)) ∧
    (n ≠ 0 → n % 2 = 0 → exec (.montmul rd ra rb rn) s = .next (afterError .modEven s)) ∧
    (n % 2 = 1 → n ≤ b → exec (.montmul rd ra rb rn) s = .next (afterError .range s)) ∧
    (n % 2 = 1 → b < n → ∃ Rinv, Rinv < n ∧ 2 ^ (32 * s.limbs) * Rinv % n = 1 % n ∧
      exec (.montmul rd ra rb rn) s = .next (afterResult rd (a * b * Rinv % n) s)) ∧
    encode (.montmul rd ra rb rn) =
      0x10 ||| BitVec.ofNat 32 rd.val <<< 8 ||| BitVec.ofNat 32 ra.val <<< 12 ||| BitVec.ofNat 32 rb.val <<< 16 |||
        BitVec.ofNat 32 rn.val <<< 20 ∧
    ∀ u : Word, u.extractLsb' 0 8 = 0x10 → (decode u = .error .field ↔ u &&& 0xFF888800 ≠ 0)

/-- 41_montgomery.md R103 with the checks of R100. -/
def Obligations.TomontMultipliesByTheRadix : Prop :=
  ∀ (s : State) (w : Word) (a n : Nat) (vb : Option Nat) (rd ra rn : RegIx), s.inflight = some ⟨w, some a, vb, some n⟩ →
    (n = 0 → exec (.tomont rd ra rn) s = .next (afterError .modZero s)) ∧
    (n ≠ 0 → n % 2 = 0 → exec (.tomont rd ra rn) s = .next (afterError .modEven s)) ∧
    (n % 2 = 1 → exec (.tomont rd ra rn) s = .next (afterResult rd (a * 2 ^ (32 * s.limbs) % n) s)) ∧
    encode (.tomont rd ra rn) =
      0x11 ||| BitVec.ofNat 32 rd.val <<< 8 ||| BitVec.ofNat 32 ra.val <<< 12 ||| BitVec.ofNat 32 rn.val <<< 20 ∧
    ∀ u : Word, u.extractLsb' 0 8 = 0x11 → (decode u = .error .field ↔ u &&& 0xFF8F8800 ≠ 0)

/-- 41_montgomery.md R104 with the checks of R100. -/
def Obligations.FrommontDividesByTheRadix : Prop :=
  ∀ (s : State) (w : Word) (a n : Nat) (vb : Option Nat) (rd ra rn : RegIx), s.inflight = some ⟨w, some a, vb, some n⟩ →
    (n = 0 → exec (.frommont rd ra rn) s = .next (afterError .modZero s)) ∧
    (n ≠ 0 → n % 2 = 0 → exec (.frommont rd ra rn) s = .next (afterError .modEven s)) ∧
    (n % 2 = 1 → ∃ Rinv, Rinv < n ∧ 2 ^ (32 * s.limbs) * Rinv % n = 1 % n ∧
      exec (.frommont rd ra rn) s = .next (afterResult rd (a * Rinv % n) s)) ∧
    encode (.frommont rd ra rn) =
      0x12 ||| BitVec.ofNat 32 rd.val <<< 8 ||| BitVec.ofNat 32 ra.val <<< 12 ||| BitVec.ofNat 32 rn.val <<< 20 ∧
    ∀ u : Word, u.extractLsb' 0 8 = 0x12 → (decode u = .error .field ↔ u &&& 0xFF8F8800 ≠ 0)

/-- 41_montgomery.md R105 with the checks of R100. -/
def Obligations.ModmulGivesTheExactProductReduced : Prop :=
  ∀ (s : State) (w : Word) (a b n : Nat) (rd ra rb rn : RegIx), s.inflight = some ⟨w, some a, some b, some n⟩ →
    (n = 0 → exec (.modmul rd ra rb rn) s = .next (afterError .modZero s)) ∧
    (n ≠ 0 → n % 2 = 0 → exec (.modmul rd ra rb rn) s = .next (afterError .modEven s)) ∧
    (n % 2 = 1 → exec (.modmul rd ra rb rn) s = .next (afterResult rd (a * b % n) s)) ∧
    encode (.modmul rd ra rb rn) =
      0x13 ||| BitVec.ofNat 32 rd.val <<< 8 ||| BitVec.ofNat 32 ra.val <<< 12 ||| BitVec.ofNat 32 rb.val <<< 16 |||
        BitVec.ofNat 32 rn.val <<< 20 ∧
    ∀ u : Word, u.extractLsb' 0 8 = 0x13 → (decode u = .error .field ↔ u &&& 0xFF888800 ≠ 0)

/-- 42_euclid.md R120: the inverse, characterised as R11 does, and the errors in their order. -/
def Obligations.ModinvGivesTheInverseOrItsError : Prop :=
  ∀ (s : State) (w : Word) (a n : Nat) (vb : Option Nat) (rd ra rn : RegIx), s.inflight = some ⟨w, some a, vb, some n⟩ →
    (n = 0 → exec (.modinv rd ra rn) s = .next (afterError .modZero s)) ∧
    (n = 1 → exec (.modinv rd ra rn) s = .next (afterError .notInv s)) ∧
    (2 ≤ n → Nat.gcd a n ≠ 1 → exec (.modinv rd ra rn) s = .next (afterError .notInv s)) ∧
    (2 ≤ n → Nat.gcd a n = 1 → ∃ x, x < n ∧ a * x % n = 1 ∧
      exec (.modinv rd ra rn) s = .next (afterResult rd x s)) ∧
    encode (.modinv rd ra rn) =
      0x20 ||| BitVec.ofNat 32 rd.val <<< 8 ||| BitVec.ofNat 32 ra.val <<< 12 ||| BitVec.ofNat 32 rn.val <<< 20 ∧
    ∀ u : Word, u.extractLsb' 0 8 = 0x20 → (decode u = .error .field ↔ u &&& 0xFF8F8800 ≠ 0)

/-- 42_euclid.md R122. -/
def Obligations.ModredReducesByAnyModulus : Prop :=
  ∀ (s : State) (w : Word) (a n : Nat) (vb : Option Nat) (rd ra rn : RegIx), s.inflight = some ⟨w, some a, vb, some n⟩ →
    (n = 0 → exec (.modred rd ra rn) s = .next (afterError .modZero s)) ∧
    (n ≠ 0 → exec (.modred rd ra rn) s = .next (afterResult rd (a % n) s)) ∧
    encode (.modred rd ra rn) =
      0x21 ||| BitVec.ofNat 32 rd.val <<< 8 ||| BitVec.ofNat 32 ra.val <<< 12 ||| BitVec.ofNat 32 rn.val <<< 20 ∧
    ∀ u : Word, u.extractLsb' 0 8 = 0x21 → (decode u = .error .field ↔ u &&& 0xFF8F8800 ≠ 0)

/-- 43_modexp.md R130. -/
def Obligations.ModexpGivesThePowerReduced : Prop :=
  ∀ (s : State) (w : Word) (base e n : Nat) (rd ra rb rn : RegIx), s.inflight = some ⟨w, some base, some e, some n⟩ →
    (n = 0 → exec (.modexp rd ra rb rn) s = .next (afterError .modZero s)) ∧
    (n ≠ 0 → n % 2 = 0 → exec (.modexp rd ra rb rn) s = .next (afterError .modEven s)) ∧
    (n % 2 = 1 → exec (.modexp rd ra rb rn) s = .next (afterResult rd (base ^ e % n) s)) ∧
    encode (.modexp rd ra rb rn) =
      0x30 ||| BitVec.ofNat 32 rd.val <<< 8 ||| BitVec.ofNat 32 ra.val <<< 12 ||| BitVec.ofNat 32 rb.val <<< 16 |||
        BitVec.ofNat 32 rn.val <<< 20 ∧
    ∀ u : Word, u.extractLsb' 0 8 = 0x30 → (decode u = .error .field ↔ u &&& 0xFF888800 ≠ 0)

/-- 10_state.md R38: what every completion does, whatever the command: STATUS, the end of the flight, at most `B[RD]`. -/
def Obligations.EveryCompletionUpdatesStatusAndAtMostItsDestination : Prop :=
  ∀ (s t : State) (f : Inflight), s.mover = .engine → s.busy = true → s.inflight = some f → step s = .next t →
    (∃ code, { t with regs := s.regs } =
      { s with
        busy := false, done := true, errcode := code, inflight := none, engine := .idle, schedule := s.schedule.tail }) ∧
    (t.errcode ≠ .ok → t.regs = s.regs) ∧
    (t.errcode = .ok → ∃ i, decode f.word = .ok i ∧
      ((i = .nop ∧ t.regs = s.regs) ∨ ∃ rd v, i.dest? = some rd ∧ t.regs = s.regs.set rd.val v rd.isLt))

/-- 60_exceptions.md R140: an error completion changes nothing but STATUS, and the next accepted command resets ERRCODE. -/
def Obligations.ErrorCompletionChangesOnlyStatus : Prop :=
  ∀ (s t : State) (e : ErrorCode), s.mover = .engine → s.busy = true → step s = .next t → t.errcode = .error e →
    t = afterError e s.advance ∧ ∀ w : Word, (busWrite 0x010 w t).busy = true ∧ (busWrite 0x010 w t).errcode = .ok

/-! ## Resets and interrupt -/

/-- 70_reset_and_hazards.md R160, 10_state.md R21: each edge of a hardware reset clears every CSR and the command in flight;
the big registers then hold some `W`-bit values, about which nothing is said. While `rst_n` is low every CSR reads its reset
value and a write sets no field and starts no command. That the bus answers then, and that a limb write leaves the registers
free again, is the model's choice (log entry 15). -/
def Obligations.HardwareResetClearsTheControlState : Prop :=
  ∀ s : State,
    (s.HardwareResets → ∃ rs : Vector Nat 8, (∀ k : RegIx, rs.get k < 2 ^ s.width) ∧
      step s = .next
        { afterClear s with
          regs := rs, draws := s.draws + 1, rstLow := decide (s.mover = .resetLow), schedule := s.schedule.tail }) ∧
    (s.mover = .resetHigh → s.rstLow = false → step s = .next { s with schedule := s.schedule.tail }) ∧
    (s.Inv → s.rstLow = true →
      s.inflight = none ∧ s.irq = false ∧ busRead 0x008 s = 0 ∧ busRead 0x00C s = 0 ∧ busRead 0x010 s = 0) ∧
    ∀ (off : Offset) (v : Word) (rest : List BusOp),
      s.mover = .host → s.rstLow = true → off.toNat % 4 = 0 → s.hostOps = memWrite off v :: rest →
      ∃ (rs : Vector Nat 8) (d : Nat), (s.RegistersFit → ∀ k : RegIx, rs.get k < 2 ^ s.width) ∧
        step s = .next { s with regs := rs, draws := d, hostOps := rest, schedule := s.schedule.tail } ∧
        ((¬ ∃ (k : RegIx) (i : Nat), i < s.limbs ∧ off.toNat = 0x1000 + 0x400 * k.val + 4 * i) →
          rs = s.regs ∧ d = s.draws)

/-- 70_reset_and_hazards.md R162: after either reset the block is idle, the interrupt is masked and STATUS is 0. -/
def Obligations.ResetsLeaveTheBlockIdle : Prop :=
  ∀ (s : State) (limbs : Nat), ∀ t ∈ [State.resetWith limbs, softReset s, assertReset s, releaseReset (assertReset s)],
    t.busy = false ∧ t.inflight = none ∧ t.ie = false ∧ t.irq = false ∧
    busRead 0x00C t = 0 ∧ busRead 0x008 t = 0 ∧ busRead 0x010 t = 0

/-- 60_exceptions.md R145: IRQ is IE AND DONE; what clears it, and that enabling it later asserts it at once. -/
def Obligations.InterruptFollowsEnableAndDone : Prop :=
  ∀ (s : State) (v : Word),
    (s.irq = true ↔ s.ie = true ∧ s.done = true) ∧
    (v.getLsbD 1 = true → (busWrite 0x00C v s).irq = false) ∧
    (v.getLsbD 0 = false → (busWrite 0x008 v s).irq = false ∧ (v.getLsbD 1 = false → (busWrite 0x008 v s).done = s.done)) ∧
    (v.getLsbD 0 = true → v.getLsbD 1 = false → (busWrite 0x008 v s).irq = s.done) ∧
    (s.busy = false → (busWrite 0x010 v s).irq = false) ∧
    (softReset s).irq = false ∧ (assertReset s).irq = false ∧ (releaseReset (assertReset s)).irq = false

/-! ## Invariants and whole-machine rules -/

/-- The invariant holds after reset in every configuration. It rests on the model's choice of register contents (log
entry 2) only through their being below `2^W`. -/
def Obligations.LegalStateAfterReset : Prop :=
  State.reset.Inv ∧ ∀ limbs : Nat, legalLimbs limbs → (State.resetWith limbs).Inv

/-- 10_state.md R20, R28, R31, R36, R41; 20_memory.md R67; 70_reset_and_hazards.md R160: every step keeps the invariant, from every state that has it. -/
def Obligations.EveryStepKeepsTheLegalState : Prop := ∀ s t : State, s.Inv → step s = .next t → t.Inv

/-- 60_exceptions.md R140, R147: a legal state never faults, and it takes a next step unless the host makes an access that
20_memory.md R51 leaves undefined. That a host access is answered while `rst_n` is low as well is the model's choice (log
entry 15). -/
def Obligations.LegalStateTakesANextStep : Prop := ∀ s : State, s.Inv → s.HostBehaves → ∃ t, step s = .next t

/-- 10_state.md R27: BUSY is set by acceptance and by nothing else, and cleared by completion, soft reset and hardware
reset and by nothing else. -/
def Obligations.BusyChangesExactlyByAcceptanceCompletionAndReset : Prop :=
  ∀ s t : State, step s = .next t →
    (s.busy = false → (t.busy = true ↔ ∃ v, s.HostWrites 0x010 v)) ∧
    (s.busy = true → (t.busy = false ↔
      s.mover = .engine ∨ s.HardwareResets ∨ ∃ v, s.HostWrites 0x008 v ∧ v.getLsbD 1 = true))

/-- 10_state.md R24, R25, R28, R30, R31, R37; 70_reset_and_hazards.md R160, R161: what sets and what clears DONE, DROP, CTRL.IE and ERRCODE, and that nothing else does. -/
def Obligations.StatusFieldsAndEnableChangeExactlyAsStated : Prop :=
  ∀ s t : State, step s = .next t →
    (s.done = false → (t.done = true ↔ s.mover = .engine ∧ s.busy = true)) ∧
    (s.done = true → (t.done = false ↔ s.HardwareResets ∨ ∃ v,
      (s.HostWrites 0x010 v ∧ s.busy = false) ∨
      (s.HostWrites 0x00C v ∧ v.getLsbD 1 = true) ∨
      (s.HostWrites 0x008 v ∧ v.getLsbD 1 = true))) ∧
    (s.drop = false → (t.drop = true ↔ s.busy = true ∧ ∃ off v, s.HostWrites off v ∧
      (off = 0x010 ∨ ∃ (k : RegIx) (i : Nat), i < s.limbs ∧ i < 256 ∧ off.toNat = 0x1000 + 0x400 * k.val + 4 * i))) ∧
    (s.drop = true → (t.drop = false ↔ s.HardwareResets ∨ ∃ v,
      (s.HostWrites 0x00C v ∧ v.getLsbD 3 = true) ∨
      (s.HostWrites 0x008 v ∧ v.getLsbD 1 = true))) ∧
    (∀ v, s.HostWrites 0x008 v → t.ie = (v.getLsbD 0 && !v.getLsbD 1)) ∧
    (s.HardwareResets → t.ie = false ∧ t.errcode = .ok) ∧
    (t.ie ≠ s.ie → s.HardwareResets ∨ ∃ v, s.HostWrites 0x008 v) ∧
    (∀ v, (s.HostWrites 0x010 v ∧ s.busy = false) ∨ (s.HostWrites 0x008 v ∧ v.getLsbD 1 = true) → t.errcode = .ok) ∧
    (t.errcode ≠ s.errcode → (s.mover = .engine ∧ s.busy = true) ∨ s.HardwareResets ∨ ∃ v,
      (s.HostWrites 0x010 v ∧ s.busy = false) ∨ (s.HostWrites 0x008 v ∧ v.getLsbD 1 = true))

/-- 10_state.md R33: CMD is the most recently accepted word, whole, or 0 after a reset, and reads so. -/
def Obligations.CmdHoldsTheLastAcceptedWord : Prop :=
  ∀ s t : State, step s = .next t →
    busRead 0x010 t = t.cmd ∧
    (∀ v, s.HostWrites 0x010 v → s.busy = false → t.cmd = v) ∧
    (∀ v, s.HostWrites 0x008 v → v.getLsbD 1 = true → t.cmd = 0) ∧
    (s.HardwareResets → t.cmd = 0) ∧
    (t.cmd ≠ s.cmd → s.HardwareResets ∨ ∃ v,
      (s.HostWrites 0x010 v ∧ s.busy = false) ∨ (s.HostWrites 0x008 v ∧ v.getLsbD 1 = true))

/-- 60_exceptions.md R144, R145: IRQ rises by a completion, or by enabling it while DONE = 1, and by nothing else. -/
def Obligations.InterruptRisesOnlyByCompletionOrEnable : Prop :=
  ∀ s t : State, step s = .next t → s.irq = false → t.irq = true →
    (s.mover = .engine ∧ s.busy = true ∧ s.ie = true) ∨
    (s.done = true ∧ ∃ v, s.HostWrites 0x008 v ∧ v.getLsbD 0 = true ∧ v.getLsbD 1 = false)

/-- 10_state.md R20, R38; 20_memory.md R60: a big register changes only by a host write of its window to an idle block,
by the successful completion of a command that names it in RD, and by hardware reset. That a limb write while `rst_n` is
low leaves all registers free again is the model's choice (log entry 15). -/
def Obligations.BigRegisterChangesOnlyByWriteResultOrReset : Prop :=
  ∀ (s t : State) (k : RegIx), step s = .next t → t.reg k ≠ s.reg k →
    s.HardwareResets ∨
    (s.mover = .engine ∧ s.busy = true ∧ t.errcode = .ok ∧
      ∃ f i, s.inflight = some f ∧ decode f.word = .ok i ∧ i.dest? = some k) ∨
    (s.busy = false ∧ ∃ off v, s.HostWrites off v ∧
      0x1000 + 0x400 * k.val ≤ off.toNat ∧ off.toNat < 0x1000 + 0x400 * k.val + 4 * s.limbs) ∨
    (s.mover = .host ∧ s.rstLow = true ∧ ∃ off v rest, s.hostOps = memWrite off v :: rest ∧
      ∃ (j : RegIx) (i : Nat), i < s.limbs ∧ off.toNat = 0x1000 + 0x400 * j.val + 4 * i)

/-- 10_state.md R23: no step changes PARAM.LIMBS. -/
def Obligations.NoStepChangesTheWidth : Prop := ∀ s t : State, step s = .next t → t.limbs = s.limbs

/-- 20_memory.md R67, 70_reset_and_hazards.md R164, R165: whatever the host does short of a soft reset, the command in
flight and all big registers stay as they were. -/
def Obligations.HostCannotDisturbTheCommandInFlight : Prop :=
  ∀ s t : State, s.ResetHolds → s.mover = .host → s.busy = true → step s = .next t → t.busy = true →
    t.inflight = s.inflight ∧ t.cmd = s.cmd ∧ t.regs = s.regs

/-- 20_memory.md R63, 10_state.md R38: it makes no difference to a command's code and result whether its completion falls
before or after a host transaction that does not reset the block. -/
def Obligations.PlacementOfCompletionDoesNotChangeItsResult : Prop :=
  ∀ (s t : State) (f : Inflight) (i : Instr), s.Inv → s.mover = .host → s.busy = true → step s = .next t → t.busy = true →
    s.inflight = some f → decode f.word = .ok i →
    ∃ u u', exec i s = .next u ∧ exec i t = .next u' ∧ u'.regs = u.regs ∧ u'.errcode = u.errcode

/-! ## Engine-internal state and the reference algorithms -/

/-- 10_state.md R41: no step's outcome depends on the engine-internal state, itself aside; a hidden turn changes nothing
else, and a host turn with no operation left changes only the schedule (log entries 5 and 8). -/
def Obligations.EngineStateAndIdleTurnsAreUnobservable : Prop :=
  ∀ s : State,
    (∀ e : Engine, forgetEngine (step { s with engine := e }) = forgetEngine (step s)) ∧
    (s.mover = .work →
      step s = .next { s with engine := Engine.work s.limbs s.engine, schedule := s.schedule.tail }) ∧
    (s.mover = .host → s.hostOps = [] → step s = .next { s with schedule := s.schedule.tail })

/-- 10_state.md R41: the engine-internal state belongs to the command in flight: it is what hidden turns have made of what
acceptance loaded, never what an earlier command left. -/
def Obligations.EveryStepKeepsTheEngineOnItsCommand : Prop :=
  ∀ s t : State, s.Inv → s.EngineTracks → step s = .next t → t.EngineTracks

/-- 41_montgomery.md R106, 42_euclid.md R121, R122, 43_modexp.md R131: whenever the units have an answer, it is the answer
the completion step gives. -/
def Obligations.EngineAnswerIsTheCommandsResult : Prop :=
  ∀ (s : State) (f : Inflight) (i : Instr) (rd : RegIx) (k : Nat) (v : Option Nat),
    s.Inv → s.inflight = some f → decode f.word = .ok i → i.dest? = some rd →
    Engine.workFor s.limbs k (Engine.load s.limbs f) = .finished v →
    exec i s = .next (match v with | some x => afterResult rd x s | none => afterError .notInv s)

/-- 70_reset_and_hazards.md R169: the units' work on every loaded command ends. No work is loaded exactly for a word that
does not decode, for NOP and MOV, and where a check of 41_montgomery.md R100, R101 or 42_euclid.md R120, R122 stops the
command before any arithmetic. That work is loaded at acceptance, and the arms at modulus 1 (FROMMONT and MODEXP load work
there, though R104 and 43_modexp.md R130 answer before any arithmetic), are the model's choice (log entry 8). -/
def Obligations.EngineWorkIsLoadedWhereNeededAndTerminates : Prop :=
  (∀ (limbs : Nat) (f : Inflight), Engine.load limbs f = .idle ∨
    ∃ k v, Engine.workFor limbs k (Engine.load limbs f) = .finished v) ∧
  ∀ (s : State) (w : Word), Engine.load s.limbs (latch w s) = .idle ↔
    match decode w with
    | .error _ => True
    | .ok .nop => True
    | .ok (.mov _ _) => True
    | .ok (.montmul _ _ rb rn) => s.reg rn % 2 = 0 ∨ s.reg rn ≤ s.reg rb
    | .ok (.tomont _ _ rn) => s.reg rn % 2 = 0
    | .ok (.frommont _ _ rn) => s.reg rn % 2 = 0
    | .ok (.modmul _ _ _ rn) => s.reg rn % 2 = 0
    | .ok (.modinv _ _ rn) => s.reg rn < 2
    | .ok (.modred _ _ rn) => s.reg rn = 0
    | .ok (.modexp _ _ _ rn) => s.reg rn % 2 = 0

/-- 41_montgomery.md R102: the bound on the accumulator, and the result. -/
def Obligations.MontmulReferenceIsTheMontgomeryProduct : Prop :=
  ∀ limbs a b n : Nat, n % 2 = 1 → a < 2 ^ (32 * limbs) → b < n →
    montAcc (negInv32 n) n a b limbs < 2 * n ∧ montmulRef limbs a b n < n ∧
    montmulRef limbs a b n * 2 ^ (32 * limbs) % n = a * b % n

/-- 41_montgomery.md R106: TOMONT, FROMMONT and MODMUL as Montgomery products. -/
def Obligations.MontgomeryRealisationsAgree : Prop :=
  ∀ limbs a b n : Nat, n % 2 = 1 → 3 ≤ n → a < 2 ^ (32 * limbs) → b < 2 ^ (32 * limbs) →
    tomontResult limbs a n = .ok (tomontRef limbs a n) ∧
    frommontResult limbs a n = .ok (frommontRef limbs a n) ∧
    modmulResult a b n = .ok (modmulRef limbs a b n)

/-- 42_euclid.md R121: its result equals rule R120's for every operand. -/
def Obligations.ModinvReferenceAgrees : Prop :=
  ∀ a n : Nat, 2 ≤ n →
    modinvResult a n = match modinvRef a n with | some x => .ok x | none => .error .notInv

/-- 43_modexp.md R131: the reference algorithm has rule R130's results, for every modulus a register can hold (R131 multiplies
residues, and 41_montgomery.md R102 wants its first operand below `2^W`). -/
def Obligations.ModexpReferenceAgrees : Prop :=
  ∀ limbs base e n : Nat, n % 2 = 1 → 3 ≤ n → n < 2 ^ (32 * limbs) → base < 2 ^ (32 * limbs) →
    modexpRef limbs base e n = base ^ e % n

/-- 41_montgomery.md R104: `FROMMONT(TOMONT(x)) = x mod n`. -/
def Obligations.FrommontUndoesTomont : Prop :=
  ∀ limbs x n : Nat, n % 2 = 1 → ∃ y, tomontResult limbs x n = .ok y ∧ frommontResult limbs y n = .ok (x % n)

/-- 43_modexp.md R132: the RSA round trip through two MODEXP commands, for an odd modulus of two distinct primes. -/
def Obligations.RsaRoundTripReturnsTheMessage : Prop :=
  ∀ (p q e d m : Nat) (s s' t : State) (w w' : Word) (rd ra rb rn rd' ra' rb' rn' : RegIx),
    p.Prime → q.Prime → p ≠ q → p * q % 2 = 1 → e * d % ((p - 1) * (q - 1)) = 1 → m < p * q →
    s.inflight = some ⟨w, some m, some e, some (p * q)⟩ → exec (.modexp rd ra rb rn) s = .next t →
    s'.inflight = some ⟨w', some (t.reg rd), some d, some (p * q)⟩ →
    exec (.modexp rd' ra' rb' rn') s' = .next (afterResult rd' m s')
end

