-- ==== Sys2Proof/Laws/Arith.lean ====
section
/-! SUPPORT. What the engines' arithmetic computes: the modular power, the extended-Euclidean loop and the inverse. -/

namespace Sys2Proof.Machine

/-! ## The modular power (43_modexp.md R130) -/

theorem lt_two_pow_bitlen (e : Nat) : e < 2 ^ bitlen e := by
  unfold bitlen
  split
  · subst_vars; decide
  · exact Nat.lt_log2_self

/-- From the power by the exponent's bits above `i` to the whole power. -/
theorem powLoop_spec (base e n i : Nat) : powLoop base e n i (base ^ (e / 2 ^ i) % n) = base ^ e % n := by
  induction i with
  | zero => simp [powLoop]
  | succ i ih =>
    rw [powLoop, ← ih]
    have hd : e / 2 ^ i = 2 * (e / 2 ^ (i + 1)) + e / 2 ^ i % 2 := by
      rw [pow_succ, ← Nat.div_div_eq_div_mul]; omega
    have hb : e.testBit i = decide (e / 2 ^ i % 2 = 1) := Nat.testBit_eq_decide_div_mod_eq
    have hsq (q : Nat) : base ^ q % n * (base ^ q % n) % n = base ^ (2 * q) % n := by
      rw [← Nat.mul_mod, ← pow_add, two_mul]
    rcases Nat.mod_two_eq_zero_or_one (e / 2 ^ i) with h | h
    · rw [hb, h, if_neg (by decide), hsq, hd, h]; rfl
    · rw [hb, h, if_pos (by decide), hsq, Nat.mod_mul_mod, ← pow_succ, hd, h]

/-- `powMod` is the power reduced. -/
theorem powMod_eq (base e n : Nat) : powMod base e n = base ^ e % n := by
  have h := powLoop_spec base e n (bitlen e)
  rwa [Nat.div_eq_of_lt (lt_two_pow_bitlen e), pow_zero] at h

/-! ## The extended-Euclidean loop (42_euclid.md R121) -/

/-- What every pass keeps: the remainders are their coefficient times `a`, modulo `n`, and their gcd is that of `a` and `n`. -/
def EuclidInv (a n : Nat) (e : EuclidRegs) : Prop :=
  (n : Int) ∣ e.oldS * a - e.oldR ∧ (n : Int) ∣ e.s * a - e.r ∧ Nat.gcd e.oldR e.r = Nat.gcd a n

theorem euclidStart_inv (a n : Nat) : EuclidInv a n (euclidStart a n) := by
  simp [EuclidInv, euclidStart]

theorem euclidStep_r (e : EuclidRegs) : (euclidStep e).r = e.oldR % e.r := by
  simp only [euclidStep]
  have := Nat.div_add_mod e.oldR e.r
  rw [Nat.mul_comm] at this
  omega

theorem euclidStep_inv {a n : Nat} {e : EuclidRegs} (h : EuclidInv a n e) : EuclidInv a n (euclidStep e) := by
  obtain ⟨h1, h2, h3⟩ := h
  refine ⟨h2, ?_, ?_⟩
  · have hr : ((euclidStep e).r : Int) = e.oldR - (e.oldR / e.r : Nat) * e.r := by
      rw [euclidStep_r]
      have h := Nat.div_add_mod e.oldR e.r
      have h' : ((e.r * (e.oldR / e.r) + e.oldR % e.r : Nat) : Int) = e.oldR := by rw [h]
      push_cast at h' ⊢
      linarith
    rw [hr]
    have hs : (euclidStep e).s = e.oldS - (e.oldR / e.r : Nat) * e.s := rfl
    rw [hs]
    have : (e.oldS - (e.oldR / e.r : Nat) * e.s) * a - ((e.oldR : Int) - (e.oldR / e.r : Nat) * e.r) =
        (e.oldS * a - e.oldR) - (e.oldR / e.r : Nat) * (e.s * a - e.r) := by ring
    rw [this]
    exact dvd_sub h1 (Dvd.dvd.mul_left h2 _)
  · rw [euclidStep_r, ← h3]
    change Nat.gcd e.r (e.oldR % e.r) = _
    rw [Nat.gcd_comm e.r, ← Nat.gcd_rec, Nat.gcd_comm]

/-- With enough fuel the loop ends with remainder 0, so `oldR` is the gcd. -/
theorem euclidLoop_spec {a n : Nat} (fuel : Nat) (e : EuclidRegs) (h : EuclidInv a n e) (hf : e.r < fuel) :
    EuclidInv a n (euclidLoop fuel e) ∧ (euclidLoop fuel e).oldR = Nat.gcd a n := by
  induction fuel generalizing e with
  | zero => omega
  | succ f ih =>
    rw [euclidLoop]
    split
    · next hr => exact ⟨h, by rw [← h.2.2, hr, Nat.gcd_zero_right]⟩
    · next hr =>
      apply ih _ (euclidStep_inv h)
      rw [euclidStep_r]
      have := Nat.mod_lt e.oldR (Nat.pos_of_ne_zero hr)
      omega

/-- `modInv` is the inverse of 00_scope.md R11. -/
theorem modInv_spec {a n : Nat} (hn : 2 ≤ n) (hg : Nat.gcd a n = 1) : modInv a n < n ∧ a * modInv a n % n = 1 := by
  obtain ⟨⟨h1, -, -⟩, h2⟩ := euclidLoop_spec (n + 1) (euclidStart a n) (euclidStart_inv a n) (Nat.lt_succ_self n)
  rw [h2, hg] at h1
  set x := (euclidLoop (n + 1) (euclidStart a n)).oldS with hx
  have hn' : (n : Int) ≠ 0 := by omega
  have hx0 := Int.emod_nonneg x hn'
  have hxn := Int.emod_lt_of_pos x (show (0 : Int) < n by omega)
  have hm : modInv a n = (x % n).toNat := rfl
  refine ⟨by omega, ?_⟩
  have hc : ((modInv a n : Nat) : Int) = x % n := by omega
  have : ((a * modInv a n : Nat) : Int) % n = 1 % n := by
    push_cast
    rw [hc, Int.mul_emod, Int.emod_emod_of_dvd _ (dvd_refl _), ← Int.mul_emod]
    rw [mul_comm]
    exact (Int.modEq_iff_dvd.2 (by simpa using h1)).symm
  have h1n : (1 : Int) % n = 1 := Int.emod_eq_of_lt (by omega) (by omega)
  rw [h1n] at this
  exact_mod_cast this

/-- The radix is invertible modulo an odd modulus (41_montgomery.md R100). -/
theorem radix_coprime (limbs : Nat) {n : Nat} (hn : n % 2 = 1) : Nat.gcd (radix limbs) n = 1 := by
  have h2 : Nat.Coprime 2 n := Nat.coprime_two_left.2 (Nat.odd_iff.2 hn)
  exact Nat.Coprime.pow_left _ h2

/-- `radixInv` is `Rinv` of 41_montgomery.md R100. -/
theorem radixInv_spec (limbs : Nat) {n : Nat} (hn : n % 2 = 1) (h3 : 3 ≤ n) :
    radixInv limbs n < n ∧ radix limbs * radixInv limbs n % n = 1 := by
  have hg : Nat.gcd (radix limbs % n) n = 1 := by
    rw [← Nat.gcd_rec n, Nat.gcd_comm]; exact radix_coprime limbs hn
  obtain ⟨h, h'⟩ := modInv_spec (by omega) hg
  exact ⟨h, by rw [Nat.mul_mod, ← Nat.mod_mod (radix limbs) n, ← Nat.mul_mod]; exact h'⟩

end Sys2Proof.Machine
end

