-- ==== Sys2Proof/Laws/Decode.lean ====
section
/-! SUPPORT. The command word bit by bit, and what the decoder's parts answer. -/

namespace Sys2Proof

/-- Every bit of a packed word (30_encoding.md R70). -/
theorem packWord_getLsbD (op : BitVec 8) (rd ra rb rn : BitVec 3) (i : Nat) :
    (packWord op rd ra rb rn).getLsbD i =
      if i < 8 then op.getLsbD i else if i < 11 then rd.getLsbD (i - 8) else if i < 12 then false
      else if i < 15 then ra.getLsbD (i - 12) else if i < 16 then false else if i < 19 then rb.getLsbD (i - 16)
      else if i < 20 then false else rn.getLsbD (i - 20) := by
  change BitVec.getLsbD (w := 9 + 3 + 1 + 3 + 1 + 3 + 1 + 3 + 8)
    (0#9 ++ rn ++ 0#1 ++ rb ++ 0#1 ++ ra ++ 0#1 ++ rd ++ op) i = _
  simp only [BitVec.getLsbD_append, BitVec.getLsbD_zero]
  split_ifs <;> first | rfl | omega | skip
  all_goals (symm; apply BitVec.getLsbD_of_ge; omega)

@[simp] theorem fieldOp_packWord (op : BitVec 8) (rd ra rb rn : BitVec 3) :
    fieldOp (packWord op rd ra rb rn) = op := by
  apply BitVec.eq_of_getLsbD_eq; intro i hi
  rw [fieldOp, BitVec.getLsbD_extractLsb', packWord_getLsbD]; simp [hi]

@[simp] theorem fieldRd_packWord (op : BitVec 8) (rd ra rb rn : BitVec 3) :
    fieldRd (packWord op rd ra rb rn) = rd := by
  apply BitVec.eq_of_getLsbD_eq; intro i hi
  rw [fieldRd, BitVec.getLsbD_extractLsb', packWord_getLsbD]; interval_cases i <;> simp

@[simp] theorem fieldRa_packWord (op : BitVec 8) (rd ra rb rn : BitVec 3) :
    fieldRa (packWord op rd ra rb rn) = ra := by
  apply BitVec.eq_of_getLsbD_eq; intro i hi
  rw [fieldRa, BitVec.getLsbD_extractLsb', packWord_getLsbD]; interval_cases i <;> simp

@[simp] theorem fieldRb_packWord (op : BitVec 8) (rd ra rb rn : BitVec 3) :
    fieldRb (packWord op rd ra rb rn) = rb := by
  apply BitVec.eq_of_getLsbD_eq; intro i hi
  rw [fieldRb, BitVec.getLsbD_extractLsb', packWord_getLsbD]; interval_cases i <;> simp

@[simp] theorem fieldRn_packWord (op : BitVec 8) (rd ra rb rn : BitVec 3) :
    fieldRn (packWord op rd ra rb rn) = rn := by
  apply BitVec.eq_of_getLsbD_eq; intro i hi
  rw [fieldRn, BitVec.getLsbD_extractLsb', packWord_getLsbD]; interval_cases i <;> simp

/-- The reserved bits, one by one (30_encoding.md R75). -/
theorem reservedZero_iff (w : Word) :
    reservedZero w = true ↔ ∀ i, 23 ≤ i ∨ i = 19 ∨ i = 15 ∨ i = 11 → w.getLsbD i = false := by
  simp only [reservedZero, Bool.and_eq_true, beq_iff_eq]
  constructor
  · rintro ⟨⟨⟨h1, h2⟩, h3⟩, h4⟩ i hi
    have bit (n m : Nat) (hk : w.extractLsb' n m = 0) (h : n ≤ i ∧ i < n + m) : w.getLsbD i = false := by
      have := congrArg (fun x => x.getLsbD (i - n)) hk
      simpa [BitVec.getLsbD_extractLsb', show i - n < m by omega, show n + (i - n) = i by omega] using this
    by_cases h32 : i < 32
    · rcases hi with hi | rfl | rfl | rfl
      exacts [bit _ _ h1 (by omega), bit _ _ h2 (by omega), bit _ _ h3 (by omega), bit _ _ h4 (by omega)]
    · exact BitVec.getLsbD_of_ge _ _ (by omega)
  · intro h
    refine ⟨⟨⟨?_, ?_⟩, ?_⟩, ?_⟩ <;>
      (apply BitVec.eq_of_getLsbD_eq; intro i hi; rw [BitVec.getLsbD_extractLsb', h _ (by omega)]; simp)

@[simp] theorem reservedZero_packWord (op : BitVec 8) (rd ra rb rn : BitVec 3) :
    reservedZero (packWord op rd ra rb rn) = true := by
  rw [reservedZero_iff]
  intro i hi
  rw [packWord_getLsbD]
  split_ifs <;> first | omega | rfl | exact BitVec.getLsbD_of_ge _ _ (by omega)

/-- A word whose reserved bits are zero is made of its fields. -/
theorem packWord_fields (w : Word) (h : reservedZero w = true) :
    packWord (fieldOp w) (fieldRd w) (fieldRa w) (fieldRb w) (fieldRn w) = w := by
  rw [reservedZero_iff] at h
  apply BitVec.eq_of_getLsbD_eq; intro i hi
  rw [packWord_getLsbD]
  simp only [fieldOp, fieldRd, fieldRa, fieldRb, fieldRn, BitVec.getLsbD_extractLsb']
  split_ifs with h1 h2 h3 h4 h5 h6 h7
  · simp [h1]
  · simp [show i - 8 < 3 by omega, show 8 + (i - 8) = i by omega]
  · exact (h i (by omega)).symm
  · simp [show i - 12 < 3 by omega, show 12 + (i - 12) = i by omega]
  · exact (h i (by omega)).symm
  · simp [show i - 16 < 3 by omega, show 16 + (i - 16) = i by omega]
  · exact (h i (by omega)).symm
  · by_cases h8 : i < 23
    · simp [show i - 20 < 3 by omega, show 20 + (i - 20) = i by omega]
    · simp [show ¬ i - 20 < 3 by omega, h i (by omega)]

@[simp] theorem toRegIx_ofRegIx (k : RegIx) : toRegIx (ofRegIx k) = k := rfl
@[simp] theorem ofRegIx_toRegIx (f : BitVec 3) : ofRegIx (toRegIx f) = f := rfl

@[simp] theorem opcodeOf_code (op : Opcode) : opcodeOf op.code = some op := by cases op <;> decide

theorem opcodeOf_eq_some (c : BitVec 8) (op : Opcode) : opcodeOf c = some op ↔ op.code = c := by
  constructor
  · intro h
    have := List.find?_some h
    simpa using this
  · rintro rfl
    exact opcodeOf_code op

theorem opcodeOf_eq_none (c : BitVec 8) : opcodeOf c = none ↔ ∀ op : Opcode, op.code ≠ c := by
  constructor
  · intro h op hc
    rw [← hc, opcodeOf_code] at h
    cases h
  · intro h
    cases hc : opcodeOf c with
    | none => rfl
    | some op => exact absurd ((opcodeOf_eq_some c op).1 hc) (h op)

@[simp] theorem build_opcode (op : Opcode) (rd ra rb rn : RegIx) : (op.build rd ra rb rn).opcode = op := by
  cases op <;> rfl

/-- Everything the decoder can answer (30_encoding.md R76). -/
theorem decode_cases (w : Word) :
    (opcodeOf (fieldOp w) = none ∧ decode w = .error .opcode) ∨
    (∃ op, opcodeOf (fieldOp w) = some op ∧ (reservedZero w && unusedZero op w) = false ∧ decode w = .error .field) ∨
    (∃ op, opcodeOf (fieldOp w) = some op ∧ reservedZero w = true ∧ unusedZero op w = true ∧
      decode w =
        .ok (op.build (toRegIx (fieldRd w)) (toRegIx (fieldRa w)) (toRegIx (fieldRb w)) (toRegIx (fieldRn w)))) := by
  unfold decode
  cases h : opcodeOf (fieldOp w) with
  | none => exact .inl ⟨rfl, rfl⟩
  | some op =>
    cases hz : (reservedZero w && unusedZero op w) with
    | false => exact .inr (.inl ⟨op, rfl, hz, if_neg (by simp [hz])⟩)
    | true =>
      rw [Bool.and_eq_true] at hz
      exact .inr (.inr ⟨op, rfl, hz.1, hz.2, if_pos (by simp [hz])⟩)

end Sys2Proof
end

