-- ==== Sys2Proof/Laws/State.lean ====
section
/-! SUPPORT. One lemma per field per update of the state, so that no later proof unfolds a record update. -/

namespace Sys2Proof.Machine

/-! ## setReg -/

@[simp] theorem setReg_limbs (s : State) (k : RegIx) (v : Nat) : (s.setReg k v).limbs = s.limbs := rfl
@[simp] theorem setReg_regs (s : State) (k : RegIx) (v : Nat) : (s.setReg k v).regs = s.regs.set k.val v k.isLt := rfl
@[simp] theorem setReg_ie (s : State) (k : RegIx) (v : Nat) : (s.setReg k v).ie = s.ie := rfl
@[simp] theorem setReg_busy (s : State) (k : RegIx) (v : Nat) : (s.setReg k v).busy = s.busy := rfl
@[simp] theorem setReg_done (s : State) (k : RegIx) (v : Nat) : (s.setReg k v).done = s.done := rfl
@[simp] theorem setReg_drop (s : State) (k : RegIx) (v : Nat) : (s.setReg k v).drop = s.drop := rfl
@[simp] theorem setReg_errcode (s : State) (k : RegIx) (v : Nat) : (s.setReg k v).errcode = s.errcode := rfl
@[simp] theorem setReg_cmd (s : State) (k : RegIx) (v : Nat) : (s.setReg k v).cmd = s.cmd := rfl
@[simp] theorem setReg_inflight (s : State) (k : RegIx) (v : Nat) : (s.setReg k v).inflight = s.inflight := rfl
@[simp] theorem setReg_engine (s : State) (k : RegIx) (v : Nat) : (s.setReg k v).engine = s.engine := rfl
@[simp] theorem setReg_rstLow (s : State) (k : RegIx) (v : Nat) : (s.setReg k v).rstLow = s.rstLow := rfl
@[simp] theorem setReg_draws (s : State) (k : RegIx) (v : Nat) : (s.setReg k v).draws = s.draws := rfl
@[simp] theorem setReg_hostOps (s : State) (k : RegIx) (v : Nat) : (s.setReg k v).hostOps = s.hostOps := rfl
@[simp] theorem setReg_hostReads (s : State) (k : RegIx) (v : Nat) : (s.setReg k v).hostReads = s.hostReads := rfl
@[simp] theorem setReg_schedule (s : State) (k : RegIx) (v : Nat) : (s.setReg k v).schedule = s.schedule := rfl

/-! ## accept -/

@[simp] theorem accept_limbs (w : Word) (s : State) : (accept w s).limbs = s.limbs := rfl
@[simp] theorem accept_regs (w : Word) (s : State) : (accept w s).regs = s.regs := rfl
@[simp] theorem accept_ie (w : Word) (s : State) : (accept w s).ie = s.ie := rfl
@[simp] theorem accept_busy (w : Word) (s : State) : (accept w s).busy = true := rfl
@[simp] theorem accept_done (w : Word) (s : State) : (accept w s).done = false := rfl
@[simp] theorem accept_drop (w : Word) (s : State) : (accept w s).drop = s.drop := rfl
@[simp] theorem accept_errcode (w : Word) (s : State) : (accept w s).errcode = .ok := rfl
@[simp] theorem accept_cmd (w : Word) (s : State) : (accept w s).cmd = w := rfl
@[simp] theorem accept_inflight (w : Word) (s : State) : (accept w s).inflight = some (latch w s) := rfl
@[simp] theorem accept_engine (w : Word) (s : State) : (accept w s).engine = Engine.load s.limbs (latch w s) := rfl
@[simp] theorem accept_rstLow (w : Word) (s : State) : (accept w s).rstLow = s.rstLow := rfl
@[simp] theorem accept_draws (w : Word) (s : State) : (accept w s).draws = s.draws := rfl
@[simp] theorem accept_hostOps (w : Word) (s : State) : (accept w s).hostOps = s.hostOps := rfl
@[simp] theorem accept_hostReads (w : Word) (s : State) : (accept w s).hostReads = s.hostReads := rfl
@[simp] theorem accept_schedule (w : Word) (s : State) : (accept w s).schedule = s.schedule := rfl

/-! ## finish -/

@[simp] theorem finish_limbs (c : CompletionCode) (s : State) : (finish c s).limbs = s.limbs := rfl
@[simp] theorem finish_regs (c : CompletionCode) (s : State) : (finish c s).regs = s.regs := rfl
@[simp] theorem finish_ie (c : CompletionCode) (s : State) : (finish c s).ie = s.ie := rfl
@[simp] theorem finish_busy (c : CompletionCode) (s : State) : (finish c s).busy = false := rfl
@[simp] theorem finish_done (c : CompletionCode) (s : State) : (finish c s).done = true := rfl
@[simp] theorem finish_drop (c : CompletionCode) (s : State) : (finish c s).drop = s.drop := rfl
@[simp] theorem finish_errcode (c : CompletionCode) (s : State) : (finish c s).errcode = c := rfl
@[simp] theorem finish_cmd (c : CompletionCode) (s : State) : (finish c s).cmd = s.cmd := rfl
@[simp] theorem finish_inflight (c : CompletionCode) (s : State) : (finish c s).inflight = none := rfl
@[simp] theorem finish_engine (c : CompletionCode) (s : State) : (finish c s).engine = .idle := rfl
@[simp] theorem finish_rstLow (c : CompletionCode) (s : State) : (finish c s).rstLow = s.rstLow := rfl
@[simp] theorem finish_draws (c : CompletionCode) (s : State) : (finish c s).draws = s.draws := rfl
@[simp] theorem finish_hostOps (c : CompletionCode) (s : State) : (finish c s).hostOps = s.hostOps := rfl
@[simp] theorem finish_hostReads (c : CompletionCode) (s : State) : (finish c s).hostReads = s.hostReads := rfl
@[simp] theorem finish_schedule (c : CompletionCode) (s : State) : (finish c s).schedule = s.schedule := rfl

/-! ## clearControl -/

@[simp] theorem clearControl_limbs (s : State) : (clearControl s).limbs = s.limbs := rfl
@[simp] theorem clearControl_regs (s : State) : (clearControl s).regs = s.regs := rfl
@[simp] theorem clearControl_ie (s : State) : (clearControl s).ie = false := rfl
@[simp] theorem clearControl_busy (s : State) : (clearControl s).busy = false := rfl
@[simp] theorem clearControl_done (s : State) : (clearControl s).done = false := rfl
@[simp] theorem clearControl_drop (s : State) : (clearControl s).drop = false := rfl
@[simp] theorem clearControl_errcode (s : State) : (clearControl s).errcode = .ok := rfl
@[simp] theorem clearControl_cmd (s : State) : (clearControl s).cmd = 0 := rfl
@[simp] theorem clearControl_inflight (s : State) : (clearControl s).inflight = none := rfl
@[simp] theorem clearControl_engine (s : State) : (clearControl s).engine = .idle := rfl
@[simp] theorem clearControl_rstLow (s : State) : (clearControl s).rstLow = s.rstLow := rfl
@[simp] theorem clearControl_draws (s : State) : (clearControl s).draws = s.draws := rfl
@[simp] theorem clearControl_hostOps (s : State) : (clearControl s).hostOps = s.hostOps := rfl
@[simp] theorem clearControl_hostReads (s : State) : (clearControl s).hostReads = s.hostReads := rfl
@[simp] theorem clearControl_schedule (s : State) : (clearControl s).schedule = s.schedule := rfl

/-! ## drawRegs -/

@[simp] theorem drawRegs_limbs (s : State) : (drawRegs s).limbs = s.limbs := rfl
@[simp] theorem drawRegs_regs (s : State) : (drawRegs s).regs = Vector.ofFn fun k => Config.resetContents s.draws k % 2 ^ s.width := rfl
@[simp] theorem drawRegs_ie (s : State) : (drawRegs s).ie = s.ie := rfl
@[simp] theorem drawRegs_busy (s : State) : (drawRegs s).busy = s.busy := rfl
@[simp] theorem drawRegs_done (s : State) : (drawRegs s).done = s.done := rfl
@[simp] theorem drawRegs_drop (s : State) : (drawRegs s).drop = s.drop := rfl
@[simp] theorem drawRegs_errcode (s : State) : (drawRegs s).errcode = s.errcode := rfl
@[simp] theorem drawRegs_cmd (s : State) : (drawRegs s).cmd = s.cmd := rfl
@[simp] theorem drawRegs_inflight (s : State) : (drawRegs s).inflight = s.inflight := rfl
@[simp] theorem drawRegs_engine (s : State) : (drawRegs s).engine = s.engine := rfl
@[simp] theorem drawRegs_rstLow (s : State) : (drawRegs s).rstLow = s.rstLow := rfl
@[simp] theorem drawRegs_draws (s : State) : (drawRegs s).draws = s.draws + 1 := rfl
@[simp] theorem drawRegs_hostOps (s : State) : (drawRegs s).hostOps = s.hostOps := rfl
@[simp] theorem drawRegs_hostReads (s : State) : (drawRegs s).hostReads = s.hostReads := rfl
@[simp] theorem drawRegs_schedule (s : State) : (drawRegs s).schedule = s.schedule := rfl

/-! ## assertReset -/

@[simp] theorem assertReset_limbs (s : State) : (assertReset s).limbs = s.limbs := rfl
@[simp] theorem assertReset_regs (s : State) : (assertReset s).regs = Vector.ofFn fun k => Config.resetContents s.draws k % 2 ^ s.width := rfl
@[simp] theorem assertReset_ie (s : State) : (assertReset s).ie = false := rfl
@[simp] theorem assertReset_busy (s : State) : (assertReset s).busy = false := rfl
@[simp] theorem assertReset_done (s : State) : (assertReset s).done = false := rfl
@[simp] theorem assertReset_drop (s : State) : (assertReset s).drop = false := rfl
@[simp] theorem assertReset_errcode (s : State) : (assertReset s).errcode = .ok := rfl
@[simp] theorem assertReset_cmd (s : State) : (assertReset s).cmd = 0 := rfl
@[simp] theorem assertReset_inflight (s : State) : (assertReset s).inflight = none := rfl
@[simp] theorem assertReset_engine (s : State) : (assertReset s).engine = .idle := rfl
@[simp] theorem assertReset_rstLow (s : State) : (assertReset s).rstLow = true := rfl
@[simp] theorem assertReset_draws (s : State) : (assertReset s).draws = s.draws + 1 := rfl
@[simp] theorem assertReset_hostOps (s : State) : (assertReset s).hostOps = s.hostOps := rfl
@[simp] theorem assertReset_hostReads (s : State) : (assertReset s).hostReads = s.hostReads := rfl
@[simp] theorem assertReset_schedule (s : State) : (assertReset s).schedule = s.schedule := rfl

/-! ## workStep -/

@[simp] theorem workStep_limbs (s : State) : (workStep s).limbs = s.limbs := rfl
@[simp] theorem workStep_regs (s : State) : (workStep s).regs = s.regs := rfl
@[simp] theorem workStep_ie (s : State) : (workStep s).ie = s.ie := rfl
@[simp] theorem workStep_busy (s : State) : (workStep s).busy = s.busy := rfl
@[simp] theorem workStep_done (s : State) : (workStep s).done = s.done := rfl
@[simp] theorem workStep_drop (s : State) : (workStep s).drop = s.drop := rfl
@[simp] theorem workStep_errcode (s : State) : (workStep s).errcode = s.errcode := rfl
@[simp] theorem workStep_cmd (s : State) : (workStep s).cmd = s.cmd := rfl
@[simp] theorem workStep_inflight (s : State) : (workStep s).inflight = s.inflight := rfl
@[simp] theorem workStep_engine (s : State) : (workStep s).engine = Engine.work s.limbs s.engine := rfl
@[simp] theorem workStep_rstLow (s : State) : (workStep s).rstLow = s.rstLow := rfl
@[simp] theorem workStep_draws (s : State) : (workStep s).draws = s.draws := rfl
@[simp] theorem workStep_hostOps (s : State) : (workStep s).hostOps = s.hostOps := rfl
@[simp] theorem workStep_hostReads (s : State) : (workStep s).hostReads = s.hostReads := rfl
@[simp] theorem workStep_schedule (s : State) : (workStep s).schedule = s.schedule := rfl

/-! ## dropWrite -/

@[simp] theorem dropWrite_limbs (s : State) : (dropWrite s).limbs = s.limbs := rfl
@[simp] theorem dropWrite_regs (s : State) : (dropWrite s).regs = s.regs := rfl
@[simp] theorem dropWrite_ie (s : State) : (dropWrite s).ie = s.ie := rfl
@[simp] theorem dropWrite_busy (s : State) : (dropWrite s).busy = s.busy := rfl
@[simp] theorem dropWrite_done (s : State) : (dropWrite s).done = s.done := rfl
@[simp] theorem dropWrite_drop (s : State) : (dropWrite s).drop = true := rfl
@[simp] theorem dropWrite_errcode (s : State) : (dropWrite s).errcode = s.errcode := rfl
@[simp] theorem dropWrite_cmd (s : State) : (dropWrite s).cmd = s.cmd := rfl
@[simp] theorem dropWrite_inflight (s : State) : (dropWrite s).inflight = s.inflight := rfl
@[simp] theorem dropWrite_engine (s : State) : (dropWrite s).engine = s.engine := rfl
@[simp] theorem dropWrite_rstLow (s : State) : (dropWrite s).rstLow = s.rstLow := rfl
@[simp] theorem dropWrite_draws (s : State) : (dropWrite s).draws = s.draws := rfl
@[simp] theorem dropWrite_hostOps (s : State) : (dropWrite s).hostOps = s.hostOps := rfl
@[simp] theorem dropWrite_hostReads (s : State) : (dropWrite s).hostReads = s.hostReads := rfl
@[simp] theorem dropWrite_schedule (s : State) : (dropWrite s).schedule = s.schedule := rfl

/-! ## writeStatus -/

@[simp] theorem writeStatus_limbs (v : Word) (s : State) : (writeStatus v s).limbs = s.limbs := rfl
@[simp] theorem writeStatus_regs (v : Word) (s : State) : (writeStatus v s).regs = s.regs := rfl
@[simp] theorem writeStatus_ie (v : Word) (s : State) : (writeStatus v s).ie = s.ie := rfl
@[simp] theorem writeStatus_busy (v : Word) (s : State) : (writeStatus v s).busy = s.busy := rfl
@[simp] theorem writeStatus_done (v : Word) (s : State) : (writeStatus v s).done = (s.done && !v.getLsbD 1) := rfl
@[simp] theorem writeStatus_drop (v : Word) (s : State) : (writeStatus v s).drop = (s.drop && !v.getLsbD 3) := rfl
@[simp] theorem writeStatus_errcode (v : Word) (s : State) : (writeStatus v s).errcode = s.errcode := rfl
@[simp] theorem writeStatus_cmd (v : Word) (s : State) : (writeStatus v s).cmd = s.cmd := rfl
@[simp] theorem writeStatus_inflight (v : Word) (s : State) : (writeStatus v s).inflight = s.inflight := rfl
@[simp] theorem writeStatus_engine (v : Word) (s : State) : (writeStatus v s).engine = s.engine := rfl
@[simp] theorem writeStatus_rstLow (v : Word) (s : State) : (writeStatus v s).rstLow = s.rstLow := rfl
@[simp] theorem writeStatus_draws (v : Word) (s : State) : (writeStatus v s).draws = s.draws := rfl
@[simp] theorem writeStatus_hostOps (v : Word) (s : State) : (writeStatus v s).hostOps = s.hostOps := rfl
@[simp] theorem writeStatus_hostReads (v : Word) (s : State) : (writeStatus v s).hostReads = s.hostReads := rfl
@[simp] theorem writeStatus_schedule (v : Word) (s : State) : (writeStatus v s).schedule = s.schedule := rfl

/-! ## deliver -/

@[simp] theorem deliver_limbs (w : Word) (s : State) : (deliver w s).limbs = s.limbs := rfl
@[simp] theorem deliver_regs (w : Word) (s : State) : (deliver w s).regs = s.regs := rfl
@[simp] theorem deliver_ie (w : Word) (s : State) : (deliver w s).ie = s.ie := rfl
@[simp] theorem deliver_busy (w : Word) (s : State) : (deliver w s).busy = s.busy := rfl
@[simp] theorem deliver_done (w : Word) (s : State) : (deliver w s).done = s.done := rfl
@[simp] theorem deliver_drop (w : Word) (s : State) : (deliver w s).drop = s.drop := rfl
@[simp] theorem deliver_errcode (w : Word) (s : State) : (deliver w s).errcode = s.errcode := rfl
@[simp] theorem deliver_cmd (w : Word) (s : State) : (deliver w s).cmd = s.cmd := rfl
@[simp] theorem deliver_inflight (w : Word) (s : State) : (deliver w s).inflight = s.inflight := rfl
@[simp] theorem deliver_engine (w : Word) (s : State) : (deliver w s).engine = s.engine := rfl
@[simp] theorem deliver_rstLow (w : Word) (s : State) : (deliver w s).rstLow = s.rstLow := rfl
@[simp] theorem deliver_draws (w : Word) (s : State) : (deliver w s).draws = s.draws := rfl
@[simp] theorem deliver_hostOps (w : Word) (s : State) : (deliver w s).hostOps = s.hostOps := rfl
@[simp] theorem deliver_hostReads (w : Word) (s : State) : (deliver w s).hostReads = w :: s.hostReads := rfl
@[simp] theorem deliver_schedule (w : Word) (s : State) : (deliver w s).schedule = s.schedule := rfl

/-! ## advance -/

@[simp] theorem advance_limbs (s : State) : (s.advance).limbs = s.limbs := rfl
@[simp] theorem advance_regs (s : State) : (s.advance).regs = s.regs := rfl
@[simp] theorem advance_ie (s : State) : (s.advance).ie = s.ie := rfl
@[simp] theorem advance_busy (s : State) : (s.advance).busy = s.busy := rfl
@[simp] theorem advance_done (s : State) : (s.advance).done = s.done := rfl
@[simp] theorem advance_drop (s : State) : (s.advance).drop = s.drop := rfl
@[simp] theorem advance_errcode (s : State) : (s.advance).errcode = s.errcode := rfl
@[simp] theorem advance_cmd (s : State) : (s.advance).cmd = s.cmd := rfl
@[simp] theorem advance_inflight (s : State) : (s.advance).inflight = s.inflight := rfl
@[simp] theorem advance_engine (s : State) : (s.advance).engine = s.engine := rfl
@[simp] theorem advance_rstLow (s : State) : (s.advance).rstLow = s.rstLow := rfl
@[simp] theorem advance_draws (s : State) : (s.advance).draws = s.draws := rfl
@[simp] theorem advance_hostOps (s : State) : (s.advance).hostOps = s.hostOps := rfl
@[simp] theorem advance_hostReads (s : State) : (s.advance).hostReads = s.hostReads := rfl
@[simp] theorem advance_schedule (s : State) : (s.advance).schedule = s.schedule.tail := rfl

/-! ## The register file -/

@[simp] theorem reg_setReg_self (s : State) (k : RegIx) (v : Nat) : (s.setReg k v).reg k = v := by
  simp [State.reg, Vector.get_eq_getElem]

@[simp] theorem reg_setReg_of_ne (s : State) (k j : RegIx) (v : Nat) (h : j ≠ k) : (s.setReg k v).reg j = s.reg j := by
  have : k.val ≠ j.val := fun e => h (Fin.ext e.symm)
  simp [State.reg, Vector.get_eq_getElem, Vector.getElem_set_ne, this]

theorem reg_setReg (s : State) (k j : RegIx) (v : Nat) : (s.setReg k v).reg j = if j = k then v else s.reg j := by
  by_cases h : j = k
  · subst h; simp
  · simp [h]

@[simp] theorem reg_accept (w : Word) (s : State) (k : RegIx) : (accept w s).reg k = s.reg k := rfl
@[simp] theorem reg_finish (c : CompletionCode) (s : State) (k : RegIx) : (finish c s).reg k = s.reg k := rfl
@[simp] theorem reg_clearControl (s : State) (k : RegIx) : (clearControl s).reg k = s.reg k := rfl
@[simp] theorem reg_workStep (s : State) (k : RegIx) : (workStep s).reg k = s.reg k := rfl
@[simp] theorem reg_dropWrite (s : State) (k : RegIx) : (dropWrite s).reg k = s.reg k := rfl
@[simp] theorem reg_writeStatus (v : Word) (s : State) (k : RegIx) : (writeStatus v s).reg k = s.reg k := rfl
@[simp] theorem reg_deliver (w : Word) (s : State) (k : RegIx) : (deliver w s).reg k = s.reg k := rfl
@[simp] theorem reg_advance (s : State) (k : RegIx) : s.advance.reg k = s.reg k := rfl

/-- Whatever the free contents are, they fit the width. -/
theorem reg_drawRegs_lt (s : State) (k : RegIx) : (drawRegs s).reg k < 2 ^ s.width := by
  simp only [State.reg, Vector.get_eq_getElem, drawRegs_regs, Vector.getElem_ofFn]
  exact Nat.mod_lt _ (Nat.two_pow_pos _)

theorem reg_assertReset_lt (s : State) (k : RegIx) : (assertReset s).reg k < 2 ^ s.width := reg_drawRegs_lt s k

/-! ## The record latched depends on the registers alone -/

theorem latch_word (w : Word) (s : State) : (latch w s).word = w := by
  unfold latch; split <;> rfl

theorem latch_congr {s t : State} (w : Word) (h : t.regs = s.regs) : latch w t = latch w s := by
  have e : t.reg = s.reg := by funext k; simp [State.reg, h]
  simp [latch, e]

theorem latch_of_decode {w : Word} {i : Instr} (h : decode w = .ok i) (s : State) :
    latch w s = { word := w, va := i.srcA?.map s.reg, vb := i.srcB?.map s.reg, vn := i.modulus?.map s.reg } := by
  simp [latch, h]

theorem latch_of_error {w : Word} {e : DecodeError} (h : decode w = .error e) (s : State) :
    latch w s = { word := w, va := none, vb := none, vn := none } := by
  simp [latch, h]

end Sys2Proof.Machine
end

