-- ==== Sys2Proof/Laws/Ops.lean ====
section
/-! SUPPORT. One lemma per shared operation: everything it can do. -/

namespace Sys2Proof.Machine

/-! ## Operands (10_state.md R36) -/

theorem latched_of_some {field : Inflight → Option Nat} {s : State} {f : Inflight} {v : Nat} (k : Nat → Result)
    (hf : s.inflight = some f) (hv : field f = some v) : latched field s k = k v := by
  simp [latched, hf, hv]

/-- An operand read that goes on has read a latched value. -/
theorem latched_next {field : Inflight → Option Nat} {s t : State} {k : Nat → Result} (h : latched field s k = .next t) :
    ∃ f v, s.inflight = some f ∧ field f = some v ∧ k v = .next t := by
  unfold latched at h
  split at h
  · cases h
  · next f hf =>
    split at h
    · cases h
    · next v hv => exact ⟨f, v, hf, hv, h⟩

/-! ## Completion (10_state.md R38) -/

@[simp] theorem complete_ok (rd : RegIx) (v : Nat) (s : State) : complete rd (.ok v) s = finish .ok (s.setReg rd v) := rfl
@[simp] theorem complete_error (rd : RegIx) (e : ErrorCode) (s : State) : complete rd (.error e) s = raiseErr e s := rfl
@[simp] theorem raiseErr_eq (e : ErrorCode) (s : State) : raiseErr e s = finish (.error e) s := rfl
@[simp] theorem softReset_eq (s : State) : softReset s = clearControl s := rfl

/-- The values of the command in flight fit the width. -/
def OperandsFit (s : State) : Prop :=
  ∀ f, s.inflight = some f →
    (∀ v, f.va = some v → v < 2 ^ s.width) ∧ (∀ v, f.vb = some v → v < 2 ^ s.width) ∧ (∀ v, f.vn = some v → v < 2 ^ s.width)

/-- A completed command has done nothing, written its result, or raised an error. -/
inductive Completed (i : Instr) (s t : State) : Prop where
  | nothing (hi : i = .nop) (ht : t = finish .ok s)
  | result (rd : RegIx) (v : Nat) (hi : i.dest? = some rd) (hv : OperandsFit s → v < 2 ^ s.width)
      (ht : t = finish .ok (s.setReg rd v))
  | error (e : ErrorCode) (ht : t = finish (.error e) s)

theorem Completed.of_complete {i : Instr} {s t : State} {rd : RegIx} {r : Except ErrorCode Nat} (hi : i.dest? = some rd)
    (hr : ∀ v, r = .ok v → OperandsFit s → v < 2 ^ s.width) (ht : complete rd r s = t) : Completed i s t := by
  cases r with
  | ok v => exact .result rd v hi (hr v rfl) ht.symm
  | error e => exact .error e ht.symm

theorem withOddModulus_ok {n v : Nat} {r : Except ErrorCode Nat} (h : withOddModulus n r = .ok v) :
    n ≠ 0 ∧ n % 2 = 1 ∧ r = .ok v := by
  unfold withOddModulus at h
  split at h
  · cases h
  · split at h
    · cases h
    · exact ⟨‹_›, by omega, h⟩

theorem montmulResult_lt {limbs a b n v : Nat} (h : montmulResult limbs a b n = .ok v) : n ≠ 0 ∧ v < n := by
  obtain ⟨h0, -, h⟩ := withOddModulus_ok h
  refine ⟨h0, ?_⟩
  split at h
  · cases h
  · split at h <;> cases h
    · omega
    · exact Nat.mod_lt _ (Nat.pos_of_ne_zero h0)

theorem tomontResult_lt {limbs a n v : Nat} (h : tomontResult limbs a n = .ok v) : n ≠ 0 ∧ v < n := by
  obtain ⟨h0, -, h⟩ := withOddModulus_ok h
  cases h
  exact ⟨h0, Nat.mod_lt _ (Nat.pos_of_ne_zero h0)⟩

theorem frommontResult_lt {limbs a n v : Nat} (h : frommontResult limbs a n = .ok v) : n ≠ 0 ∧ v < n := by
  obtain ⟨h0, -, h⟩ := withOddModulus_ok h
  refine ⟨h0, ?_⟩
  split at h <;> cases h
  · omega
  · exact Nat.mod_lt _ (Nat.pos_of_ne_zero h0)

theorem modmulResult_lt {a b n v : Nat} (h : modmulResult a b n = .ok v) : n ≠ 0 ∧ v < n := by
  obtain ⟨h0, -, h⟩ := withOddModulus_ok h
  cases h
  exact ⟨h0, Nat.mod_lt _ (Nat.pos_of_ne_zero h0)⟩

theorem modexpResult_lt {base e n v : Nat} (h : modexpResult base e n = .ok v) : n ≠ 0 ∧ v < n := by
  obtain ⟨h0, -, h⟩ := withOddModulus_ok h
  refine ⟨h0, ?_⟩
  split at h <;> cases h
  · omega
  · rw [powMod_eq]; exact Nat.mod_lt _ (Nat.pos_of_ne_zero h0)

theorem modinvResult_lt {a n v : Nat} (h : modinvResult a n = .ok v) : n ≠ 0 ∧ v < n := by
  unfold modinvResult at h
  split at h
  · cases h
  · split at h
    · cases h
    · split at h
      · cases h
      · next h0 h1 hg =>
        cases h
        exact ⟨h0, (modInv_spec (by omega) (by simpa using hg)).1⟩

theorem modredResult_lt {a n v : Nat} (h : modredResult a n = .ok v) : n ≠ 0 ∧ v < n := by
  unfold modredResult at h
  split at h
  · cases h
  · next h0 => cases h; exact ⟨h0, Nat.mod_lt _ (Nat.pos_of_ne_zero h0)⟩

/-- Everything the meaning of a command can do when it answers a next state. -/
theorem exec_next {i : Instr} {s t : State} (h : exec i s = .next t) : Completed i s t := by
  cases i with
  | nop => cases h; exact .nothing rfl rfl
  | mov rd ra =>
    obtain ⟨f, a, hf, ha, h⟩ := latched_next h
    cases h
    exact .result rd a rfl (fun hs => (hs f hf).1 a ha) rfl
  | montmul rd ra rb rn =>
    obtain ⟨-, a, -, -, h⟩ := latched_next h
    obtain ⟨-, b, -, -, h⟩ := latched_next h
    obtain ⟨f, n, hf, hn, h⟩ := latched_next h
    cases h
    exact .of_complete rfl (fun v hv hs => lt_trans (montmulResult_lt hv).2 ((hs f hf).2.2 n hn)) rfl
  | tomont rd ra rn =>
    obtain ⟨-, a, -, -, h⟩ := latched_next h
    obtain ⟨f, n, hf, hn, h⟩ := latched_next h
    cases h
    exact .of_complete rfl (fun v hv hs => lt_trans (tomontResult_lt hv).2 ((hs f hf).2.2 n hn)) rfl
  | frommont rd ra rn =>
    obtain ⟨-, a, -, -, h⟩ := latched_next h
    obtain ⟨f, n, hf, hn, h⟩ := latched_next h
    cases h
    exact .of_complete rfl (fun v hv hs => lt_trans (frommontResult_lt hv).2 ((hs f hf).2.2 n hn)) rfl
  | modmul rd ra rb rn =>
    obtain ⟨-, a, -, -, h⟩ := latched_next h
    obtain ⟨-, b, -, -, h⟩ := latched_next h
    obtain ⟨f, n, hf, hn, h⟩ := latched_next h
    cases h
    exact .of_complete rfl (fun v hv hs => lt_trans (modmulResult_lt hv).2 ((hs f hf).2.2 n hn)) rfl
  | modinv rd ra rn =>
    obtain ⟨-, a, -, -, h⟩ := latched_next h
    obtain ⟨f, n, hf, hn, h⟩ := latched_next h
    cases h
    exact .of_complete rfl (fun v hv hs => lt_trans (modinvResult_lt hv).2 ((hs f hf).2.2 n hn)) rfl
  | modred rd ra rn =>
    obtain ⟨-, a, -, -, h⟩ := latched_next h
    obtain ⟨f, n, hf, hn, h⟩ := latched_next h
    cases h
    exact .of_complete rfl (fun v hv hs => lt_trans (modredResult_lt hv).2 ((hs f hf).2.2 n hn)) rfl
  | modexp rd ra rb rn =>
    obtain ⟨-, a, -, -, h⟩ := latched_next h
    obtain ⟨-, b, -, -, h⟩ := latched_next h
    obtain ⟨f, n, hf, hn, h⟩ := latched_next h
    cases h
    exact .of_complete rfl (fun v hv hs => lt_trans (modexpResult_lt hv).2 ((hs f hf).2.2 n hn)) rfl

/-- A command whose record holds what its opcode uses completes. -/
theorem exec_of_latched {i : Instr} {s : State} {f : Inflight} (hf : s.inflight = some f)
    (ha : i.srcA?.isSome = f.va.isSome) (hb : i.srcB?.isSome = f.vb.isSome) (hn : i.modulus?.isSome = f.vn.isSome) :
    ∃ t, exec i s = .next t := by
  have get {o : Option Nat} (h : true = o.isSome) : ∃ v, o = some v := Option.isSome_iff_exists.1 h.symm
  cases i with
  | nop => exact ⟨_, rfl⟩
  | mov rd ra =>
    obtain ⟨a, ha⟩ := get ha
    exact ⟨_, latched_of_some _ hf ha⟩
  | montmul rd ra rb rn | modmul rd ra rb rn | modexp rd ra rb rn =>
    obtain ⟨a, ha⟩ := get ha
    obtain ⟨b, hb⟩ := get hb
    obtain ⟨n, hn⟩ := get hn
    exact ⟨_, (latched_of_some _ hf ha).trans ((latched_of_some _ hf hb).trans (latched_of_some _ hf hn))⟩
  | tomont rd ra rn | frommont rd ra rn | modinv rd ra rn | modred rd ra rn =>
    obtain ⟨a, ha⟩ := get ha
    obtain ⟨n, hn⟩ := get hn
    exact ⟨_, (latched_of_some _ hf ha).trans (latched_of_some _ hf hn)⟩

/-! ## The address map (20_memory.md R52, R53) -/

theorem place_id (limbs : Nat) : place limbs 0x000 = .id := rfl
theorem place_param (limbs : Nat) : place limbs 0x004 = .param := rfl
theorem place_ctrl (limbs : Nat) : place limbs 0x008 = .ctrl := rfl
theorem place_status (limbs : Nat) : place limbs 0x00C = .status := rfl
theorem place_cmd (limbs : Nat) : place limbs 0x010 = .cmd := rfl

theorem limbOffset_toNat (k : RegIx) {i : Nat} (hi : i < 256) :
    (limbOffset k i).toNat = 0x1000 + 0x400 * k.val + 4 * i := by
  rw [limbOffset, BitVec.toNat_ofNat, Nat.mod_eq_of_lt]
  have := k.isLt
  omega

/-- What lies at an offset inside a window. -/
theorem place_window {limbs : Nat} {off : Offset} {k : RegIx} {i : Nat} (hi : i < 256)
    (h : off.toNat = 0x1000 + 0x400 * k.val + 4 * i) :
    place limbs off = if i < limbs then .limb k i else .unusedLimb := by
  have hk := k.isLt
  have h1 : (off.toNat - 0x1000) % 0x400 / 4 = i := by omega
  have h2 : (off.toNat - 0x1000) / 0x400 = k.val := by omega
  have h3 : Fin.ofNat 8 k.val = k := by ext; simp [Fin.ofNat]
  simp only [place]
  rw [h1, h2, h3, if_neg (by omega), if_neg (by omega), if_neg (by omega), if_neg (by omega), if_neg (by omega),
    if_pos (by omega)]

theorem place_reserved {limbs : Nat} {off : Offset}
    (h : (0x10 < off.toNat ∧ off.toNat < 0x1000) ∨ 0x3000 ≤ off.toNat) : place limbs off = .reserved := by
  simp only [place]
  rw [if_neg (by omega), if_neg (by omega), if_neg (by omega), if_neg (by omega), if_neg (by omega), if_neg (by omega)]

theorem place_eq_ctrl {limbs : Nat} {off : Offset} (h : place limbs off = .ctrl) : off = 0x008 := by
  simp only [place] at h
  split_ifs at h
  exact BitVec.eq_of_toNat_eq ‹_›

theorem place_eq_status {limbs : Nat} {off : Offset} (h : place limbs off = .status) : off = 0x00C := by
  simp only [place] at h
  split_ifs at h
  exact BitVec.eq_of_toNat_eq ‹_›

theorem place_eq_cmd {limbs : Nat} {off : Offset} (h : place limbs off = .cmd) : off = 0x010 := by
  simp only [place] at h
  split_ifs at h
  exact BitVec.eq_of_toNat_eq ‹_›

/-- An aligned offset at which a limb lies is that limb's. -/
theorem place_eq_limb {limbs : Nat} {off : Offset} {k : RegIx} {i : Nat} (h : place limbs off = .limb k i)
    (ha : off.toNat % 4 = 0) : i < limbs ∧ i < 256 ∧ off.toNat = 0x1000 + 0x400 * k.val + 4 * i := by
  simp only [place] at h
  split_ifs at h with h1 h2 h3 h4 h5 h6 h7
  obtain ⟨rfl, rfl⟩ := Place.limb.inj h
  have : (Fin.ofNat 8 ((off.toNat - 0x1000) / 0x400)).val = (off.toNat - 0x1000) / 0x400 := by
    rw [Fin.ofNat]; exact Nat.mod_eq_of_lt (by omega)
  rw [this]
  omega

/-! ## Writes (20_memory.md R59) -/

/-- Everything a write of one word can do. -/
inductive Written (off : Offset) (v : Word) (s t : State) : Prop where
  | ignored (ht : t = s)
  | softReset (ho : off = 0x008) (hv : v.getLsbD 1 = true) (ht : t = clearControl s)
  | enable (ho : off = 0x008) (hv : v.getLsbD 1 = false) (ht : t = { s with ie := v.getLsbD 0 })
  | status (ho : off = 0x00C) (ht : t = writeStatus v s)
  | accepted (ho : off = 0x010) (hb : s.busy = false) (ht : t = accept v s)
  | dropped (ho : off = 0x010 ∨ (0x1000 ≤ off.toNat ∧ off.toNat < 0x3000)) (hb : s.busy = true) (ht : t = dropWrite s)
  | limb (k : RegIx) (i : Nat) (ho : off.toNat = 0x1000 + 0x400 * k.val + 4 * i) (hi : i < s.limbs) (hw : i < 256)
      (hb : s.busy = false) (ht : t = s.setReg k (replaceLimb (s.reg k) i v))

theorem busWrite_cases (off : Offset) (v : Word) (s : State) (ha : off.toNat % 4 = 0) :
    Written off v s (busWrite off v s) := by
  unfold busWrite
  split
  · exact .ignored rfl
  · exact .ignored rfl
  · next h =>
    unfold writeCtrl
    split
    · exact .softReset (place_eq_ctrl h) ‹_› rfl
    · next hv => exact .enable (place_eq_ctrl h) (by simpa using hv) rfl
  · next h => exact .status (place_eq_status h) rfl
  · next h =>
    unfold writeCmd
    split
    · exact .dropped (.inl (place_eq_cmd h)) ‹_› rfl
    · next hb => exact .accepted (place_eq_cmd h) (by simpa using hb) rfl
  · next k i h =>
    obtain ⟨hi, hw, ho⟩ := place_eq_limb h ha
    have := k.isLt
    unfold writeLimb
    split
    · exact .dropped (.inr (by omega)) ‹_› rfl
    · next hb => exact .limb k i ho hi hw (by simpa using hb) rfl
  · exact .ignored rfl
  · exact .ignored rfl

/-- The bits of a value with one limb replaced (20_memory.md R53). -/
theorem replaceLimb_testBit (v i b : Nat) (x : Word) :
    (replaceLimb v i x).testBit b = if 32 * i ≤ b ∧ b < 32 * i + 32 then x.getLsbD (b - 32 * i) else v.testBit b := by
  have hlow : v % 2 ^ (32 * i) < 2 ^ (32 * i) := Nat.mod_lt _ (Nat.two_pow_pos _)
  have hx : x.toNat < 2 ^ 32 := x.isLt
  have hform : replaceLimb v i x = 2 ^ (32 * i) * (2 ^ 32 * (v / 2 ^ (32 * (i + 1))) + x.toNat) + v % 2 ^ (32 * i) := by
    rw [replaceLimb, show 32 * (i + 1) = 32 * i + 32 by ring, pow_add]; ring
  rw [hform, Nat.testBit_two_pow_mul_add _ hlow]
  split_ifs with h1 h2 h2
  · omega
  · rw [Nat.testBit_mod_two_pow]; simp [h1]
  · rw [Nat.testBit_two_pow_mul_add _ hx, if_pos (by omega)]; rfl
  · rw [Nat.testBit_two_pow_mul_add _ hx, if_neg (by omega), Nat.testBit_div_two_pow]
    congr 1; omega

theorem replaceLimb_lt {v i L : Nat} (x : Word) (hv : v < 2 ^ (32 * L)) (hi : i < L) :
    replaceLimb v i x < 2 ^ (32 * L) := by
  apply Nat.lt_pow_two_of_testBit
  intro b hb
  rw [replaceLimb_testBit, if_neg (by omega)]
  exact Nat.testBit_lt_two_pow (lt_of_lt_of_le hv (Nat.pow_le_pow_right (by decide) hb))

/-- While `rst_n` is low a write does nothing, or it is a limb's and the registers are free again. -/
theorem heldWrite_cases (off : Offset) (s : State) (ha : off.toNat % 4 = 0) :
    heldWrite off s = s ∨ (heldWrite off s = drawRegs s ∧
      ∃ (k : RegIx) (i : Nat), i < s.limbs ∧ i < 256 ∧ off.toNat = 0x1000 + 0x400 * k.val + 4 * i) := by
  unfold heldWrite
  split
  · next k i h => exact .inr ⟨rfl, k, i, place_eq_limb h ha⟩
  all_goals exact .inl rfl

theorem hostWrite_high {s : State} (off : Offset) (v : Word) (h : s.rstLow = false) : hostWrite off v s = busWrite off v s := by
  simp [hostWrite, h]

theorem hostWrite_low {s : State} (off : Offset) (v : Word) (h : s.rstLow = true) : hostWrite off v s = heldWrite off s := by
  simp [hostWrite, h]

/-! ## Resets (70_reset_and_hazards.md R160) -/

theorem releaseReset_low {s : State} (h : s.rstLow = true) :
    releaseReset s = { drawRegs (clearControl s) with rstLow := false } := by simp [releaseReset, h]

theorem releaseReset_high {s : State} (h : s.rstLow = false) : releaseReset s = s := by simp [releaseReset, h]

/-! ## One step (00_scope.md R13) -/

/-- Everything a step can do when it answers a next state. -/
inductive Stepped (s t : State) : Prop where
  | hostIdle (hm : s.mover = .host) (ho : s.hostOps = []) (ht : t = s.advance)
  | hostRead (off : Offset) (rest : List BusOp) (hm : s.mover = .host) (ho : s.hostOps = .read ⟨off, 4⟩ :: rest)
      (ha : off.toNat % 4 = 0) (ht : t = deliver (busRead off s) { s.advance with hostOps := rest })
  | hostWrite (off : Offset) (v : Word) (rest : List BusOp) (hm : s.mover = .host)
      (ho : s.hostOps = .write ⟨off, 4⟩ v :: rest) (ha : off.toNat % 4 = 0) (hr : s.rstLow = false)
      (ht : t = busWrite off v { s.advance with hostOps := rest })
  | heldWrite (off : Offset) (v : Word) (rest : List BusOp) (hm : s.mover = .host)
      (ho : s.hostOps = .write ⟨off, 4⟩ v :: rest) (ha : off.toNat % 4 = 0) (hr : s.rstLow = true)
      (ht : t = heldWrite off { s.advance with hostOps := rest })
  | hostPoll (rest : List BusOp) (hm : s.mover = .host) (ho : s.hostOps = .poll :: rest)
      (ht : t = deliver (statusWord s)
        { s.advance with hostOps := if (statusWord s).getLsbD 0 then .poll :: rest else rest })
  | enginePasses (hm : s.mover = .engine) (hb : s.busy = false) (ht : t = s.advance)
  | undecodable (f : Inflight) (e : DecodeError) (hm : s.mover = .engine) (hb : s.busy = true) (hf : s.inflight = some f)
      (hd : decode f.word = .error e) (ht : t = finish (.error (errorOfDecode e)) s.advance)
  | executed (f : Inflight) (i : Instr) (hm : s.mover = .engine) (hb : s.busy = true) (hf : s.inflight = some f)
      (hd : decode f.word = .ok i) (he : exec i s.advance = .next t) (hc : Completed i s.advance t)
  | worked (hm : s.mover = .work) (ht : t = workStep s.advance)
  | asserted (hm : s.mover = .resetLow) (ht : t = assertReset s.advance)
  | released (hm : s.mover = .resetHigh) (hr : s.rstLow = true)
      (ht : t = { drawRegs (clearControl s.advance) with rstLow := false })
  | notHeld (hm : s.mover = .resetHigh) (hr : s.rstLow = false) (ht : t = s.advance)

theorem step_next {s t : State} (h : step s = .next t) : Stepped s t := by
  unfold step takeTurn at h
  split at h
  · next hm =>
    unfold hostTurn at h
    split at h
    · next ho => cases h; exact .hostIdle hm ho rfl
    · next a rest ho =>
      split at h
      · next hw =>
        obtain ⟨off, bytes⟩ := a
        obtain ⟨rfl, ha⟩ := hw
        cases h; exact .hostRead off rest hm ho ha rfl
      · cases h
    · next a v rest ho =>
      split at h
      · next hw =>
        obtain ⟨off, bytes⟩ := a
        obtain ⟨rfl, ha⟩ := hw
        cases h
        cases hr : s.rstLow with
        | false => exact .hostWrite off v rest hm ho ha hr (hostWrite_high _ _ hr)
        | true => exact .heldWrite off v rest hm ho ha hr (hostWrite_low _ _ hr)
      · cases h
    · next rest ho => cases h; exact .hostPoll rest hm ho rfl
  · next hm =>
    unfold engineTurn at h
    split at h
    · next hb =>
      split at h
      · cases h
      · next f hf =>
        split at h
        · next e hd => cases h; exact .undecodable f e hm hb hf hd rfl
        · next i hd => exact .executed f i hm hb hf hd h (exec_next h)
    · next hb => cases h; exact .enginePasses hm (by simpa using hb) rfl
  · next hm => cases h; exact .worked hm rfl
  · next hm => cases h; exact .asserted hm rfl
  · next hm =>
    cases h
    cases hr : s.rstLow with
    | false => exact .notHeld hm hr (releaseReset_high hr)
    | true => exact .released hm hr (releaseReset_low hr)

/-- The host's write of a defined access is performed. -/
theorem step_host_write {s : State} {off : Offset} {v : Word} {rest : List BusOp} (hm : s.mover = .host)
    (ho : s.hostOps = .write ⟨off, 4⟩ v :: rest) (ha : off.toNat % 4 = 0) :
    step s = .next (hostWrite off v { s.advance with hostOps := rest }) := by
  simp only [step, hm, takeTurn, hostTurn, advance_hostOps, ho]
  rw [if_pos ⟨rfl, ha⟩]

/-- The host's read of a defined access is performed. -/
theorem step_host_read {s : State} {off : Offset} {rest : List BusOp} (hm : s.mover = .host)
    (ho : s.hostOps = .read ⟨off, 4⟩ :: rest) (ha : off.toNat % 4 = 0) :
    step s = .next (deliver (busRead off s) { s.advance with hostOps := rest }) := by
  simp only [step, hm, takeTurn, hostTurn, advance_hostOps, ho]
  rw [if_pos ⟨rfl, ha⟩]
  rfl

/-! ## Hidden turns (10_state.md R41) -/

theorem workFor_succ (limbs k : Nat) (e : Engine) :
    Engine.workFor limbs (k + 1) e = Engine.work limbs (Engine.workFor limbs k e) := by
  induction k generalizing e with
  | zero => rfl
  | succ k ih => rw [Engine.workFor, ih]; rfl

end Sys2Proof.Machine
end

