-- ==== Sys2Proof/Laws/PerInstr.lean ====
section
/-! SUPPORT. For every command: the fields its opcode uses (30_encoding.md R74) are the ones its constructor holds, and
its word leaves every reserved and unused bit zero (30_encoding.md R74, R75, R79). -/

namespace Sys2Proof.Laws.FieldUse

/-- The fields R74 gives the opcode are the operands of the command, and its word keeps the other bits zero. -/
def Statement (i : Instr) : Prop :=
  i.opcode.usesRd = i.dest?.isSome ∧ i.opcode.usesRa = i.srcA?.isSome ∧
  i.opcode.usesRb = i.srcB?.isSome ∧ i.opcode.usesRn = i.modulus?.isSome ∧
  reservedZero (encode i) = true ∧ unusedZero i.opcode (encode i) = true

/-- A command whose constructor holds what its opcode uses has the property. -/
theorem of_uses (i : Instr) (h1 : i.opcode.usesRd = i.dest?.isSome) (h2 : i.opcode.usesRa = i.srcA?.isSome)
    (h3 : i.opcode.usesRb = i.srcB?.isSome) (h4 : i.opcode.usesRn = i.modulus?.isSome) : Statement i := by
  have z (b : Bool) (o : Option RegIx) (h : b = o.isSome) : (b || usedField o == 0) = true := by
    cases o <;> simp_all [usedField]
  refine ⟨h1, h2, h3, h4, reservedZero_packWord _ _ _ _ _, ?_⟩
  simp only [unusedZero, encode, fieldRd_packWord, fieldRa_packWord, fieldRb_packWord, fieldRn_packWord]
  rw [z _ _ h1, z _ _ h2, z _ _ h3, z _ _ h4]; rfl

theorem nop : Statement .nop := of_uses _ rfl rfl rfl rfl
theorem mov (rd ra : RegIx) : Statement (.mov rd ra) := of_uses _ rfl rfl rfl rfl
theorem montmul (rd ra rb rn : RegIx) : Statement (.montmul rd ra rb rn) := of_uses _ rfl rfl rfl rfl
theorem tomont (rd ra rn : RegIx) : Statement (.tomont rd ra rn) := of_uses _ rfl rfl rfl rfl
theorem frommont (rd ra rn : RegIx) : Statement (.frommont rd ra rn) := of_uses _ rfl rfl rfl rfl
theorem modmul (rd ra rb rn : RegIx) : Statement (.modmul rd ra rb rn) := of_uses _ rfl rfl rfl rfl
theorem modinv (rd ra rn : RegIx) : Statement (.modinv rd ra rn) := of_uses _ rfl rfl rfl rfl
theorem modred (rd ra rn : RegIx) : Statement (.modred rd ra rn) := of_uses _ rfl rfl rfl rfl
theorem modexp (rd ra rb rn : RegIx) : Statement (.modexp rd ra rb rn) := of_uses _ rfl rfl rfl rfl

end Sys2Proof.Laws.FieldUse
end

