-- ==== Sys2Proof/Laws/Safety.lean ====
section
/-! SUPPORT. What the invariant says of the command in flight, and the states of Sys2Proof/Safety.lean in the model's own terms. -/

namespace Sys2Proof.Machine

theorem afterResult_eq (rd : RegIx) (v : Nat) (s : State) : afterResult rd v s = finish .ok (s.setReg rd v) := rfl
theorem afterNothing_eq (s : State) : afterNothing s = finish .ok s := rfl
theorem afterError_eq (e : ErrorCode) (s : State) : afterError e s = finish (.error e) s := rfl
theorem afterClear_eq (s : State) : afterClear s = clearControl s := rfl
theorem afterAccept_latch (w : Word) (s : State) : afterAccept (latch w s) s = accept w s := by
  simp [afterAccept, accept, latch_word]

/-- In a legal state the record in flight is what CMD and the registers would latch now. -/
theorem inflight_of_inv {s : State} (h : s.Inv) {f : Inflight} (hf : s.inflight = some f) :
    s.busy = true ∧ f = latch s.cmd s := by
  have hm : s.inflight = if s.busy then some (latch s.cmd s) else none := h.2.2.1
  rw [hf] at hm
  split at hm
  · next hb => exact ⟨hb, Option.some.inj hm⟩
  · cases hm

theorem inflight_none_of_inv {s : State} (h : s.Inv) (hb : s.busy = false) : s.inflight = none := by
  have hm : s.inflight = if s.busy then some (latch s.cmd s) else none := h.2.2.1
  simpa [hb] using hm

/-- In a legal state every latched operand fits the width. -/
theorem operandsFit_of_inv {s : State} (h : s.Inv) : OperandsFit s := by
  intro f hf
  obtain ⟨-, rfl⟩ := inflight_of_inv h hf
  have hr (o : Option RegIx) (v : Nat) (hv : o.map s.reg = some v) : v < 2 ^ s.width := by
    cases o with
    | none => cases hv
    | some k => cases hv; exact h.2.1 k
  unfold latch
  split
  · simp
  · exact ⟨hr _, hr _, hr _⟩

/-- A command that decodes has every operand its meaning reads. -/
theorem exec_of_latch {i : Instr} {s : State} {w : Word} (hf : s.inflight = some (latch w s)) (hd : decode w = .ok i) :
    ∃ t, exec i s = .next t :=
  exec_of_latched hf (by simp [latch_of_decode hd]) (by simp [latch_of_decode hd]) (by simp [latch_of_decode hd])

/-! ## The two kinds of step the whole-machine rules name -/

theorem hostWrites_of {s : State} {off : Offset} {v : Word} {rest : List BusOp} (hm : s.mover = .host)
    (hr : s.rstLow = false) (ho : s.hostOps = .write ⟨off, 4⟩ v :: rest) : s.HostWrites off v := ⟨hm, hr, by simp [ho]⟩

theorem step_of_hostWrites {s : State} {off : Offset} {v : Word} (h : s.HostWrites off v) (ha : off.toNat % 4 = 0) :
    step s = .next (busWrite off v { s.advance with hostOps := s.hostOps.tail }) := by
  obtain ⟨hm, hr, ho⟩ := h
  obtain ⟨rest, ho⟩ : ∃ rest, s.hostOps = .write ⟨off, 4⟩ v :: rest := by
    cases e : s.hostOps with
    | nil => simp [e] at ho
    | cons op rest => exact ⟨rest, by simpa [e] using ho⟩
  rw [step_host_write hm ho ha, ho]
  exact congrArg _ (hostWrite_high off v hr)

theorem step_of_hardwareResets {s : State} (h : s.HardwareResets) :
    step s = .next { drawRegs (clearControl s.advance) with rstLow := decide (s.mover = .resetLow) } := by
  obtain hm | ⟨hm, hr⟩ := h
  · simp only [step, hm, takeTurn, assertReset, decide_true]
  · simp only [step, hm, takeTurn]
    rw [releaseReset_low (s := s.advance) hr]
    rfl

end Sys2Proof.Machine
end

