-- ==== Sys2Proof/Tests/Slice0.lean ====
section
/-! SUPPORT. Small tests, each one step or less, with expected results from spec/95_test_vectors.md or worked out from the
rule named; and a witness for the hypotheses of every statement. -/

namespace Sys2Proof.Tests

open Sys2Proof.Machine

/-! ## Helpers -/

/-- The block with W = 64 after reset, the configuration of spec/95_test_vectors.md. -/
def s64 : State := State.resetWith 2

/-- Operands in the registers `cmdWord` names: B1 old destination, B2, B3, B4. -/
def load (a b n : Nat) : State := (((s64.setReg 1 0xDEAD).setReg 2 a).setReg 3 b).setReg 4 n

/-- What a step leaves in STATUS and in B1. -/
def seen : Result → Option (Word × Nat)
  | .next t => some (statusWord t, t.reg 1)
  | .fault _ => none
  | .refused _ => none

/-- One step of the host on `s`: CTRL, STATUS, CMD and B0 after it. -/
def seenCsrs : Result → Option (Word × Word × Word × Nat × Bool)
  | .next t => some (busRead 0x008 t, busRead 0x00C t, busRead 0x010 t, t.reg 0, t.irq)
  | .fault _ => none
  | .refused _ => none

/-- BUSY, IE and CMD after a step. -/
def seenHeld : Result → Option (Bool × Bool × Word)
  | .next t => some (t.busy, t.ie, t.cmd)
  | .fault _ => none
  | .refused _ => none

def isRefused : Result → Bool
  | .next _ => false
  | .fault _ => false
  | .refused _ => true

/-! ## Well-formedness: an ill-formed term for each check, which the check refuses -/

theorem test_access_of_one_byte_refused : ¬ Access.wf ⟨0x008, 1⟩ := by decide
theorem test_access_of_eight_bytes_refused : ¬ Access.wf ⟨0x008, 8⟩ := by decide
theorem test_access_misaligned_refused : ¬ Access.wf ⟨0x00A, 4⟩ := by decide
theorem test_access_word_accepted : Access.wf ⟨0x008, 4⟩ := by decide
theorem test_busop_ill_formed : BusOp.wf (.write ⟨0x009, 4⟩ 0) = false := by decide
theorem test_limbs_below_two_refused : ¬ legalLimbs 1 := by decide
theorem test_limbs_above_256_refused : ¬ legalLimbs 257 := by decide
theorem test_word_reserved_opcode : decode 0x00000002 = .error .opcode := by decide
theorem test_word_opcode_before_field : decode 0x800000FF = .error .opcode := by decide
theorem test_word_bit_11 : decode 0x00210B10 = .error .field := by decide
theorem test_word_bit_15 : decode 0x00008101 = .error .field := by decide
theorem test_word_bit_19 : decode 0x00080101 = .error .field := by decide
theorem test_word_bit_23 : decode 0x00800101 = .error .field := by decide
theorem test_word_bit_31 : decode 0x80432130 = .error .field := by decide
theorem test_word_unused_rd : decode 0x00000100 = .error .field := by decide
theorem test_word_unused_ra : decode 0x00001000 = .error .field := by decide
theorem test_word_unused_rb : decode 0x00352120 = .error .field := by decide
theorem test_word_unused_rn : decode 0x00100101 = .error .field := by decide

/-! ## Decoding: words written out from 30_encoding.md R70 and R73
(`000000000 nnn 0 bbb 0 aaa 0 ddd oooooooo`), with distinct fields -/

theorem test_decode_nop : decode 0b000000000_000_0_000_0_000_0_000_00000000 = .ok .nop := by decide
theorem test_decode_mov : decode 0b000000000_000_0_000_0_110_0_011_00000001 = .ok (.mov 3 6) := by decide
theorem test_decode_montmul : decode 0b000000000_100_0_001_0_111_0_010_00010000 = .ok (.montmul 2 7 1 4) := by decide
theorem test_decode_tomont : decode 0b000000000_101_0_000_0_011_0_110_00010001 = .ok (.tomont 6 3 5) := by decide
theorem test_decode_frommont : decode 0b000000000_001_0_000_0_100_0_111_00010010 = .ok (.frommont 7 4 1) := by decide
theorem test_decode_modmul : decode 0b000000000_110_0_011_0_001_0_100_00010011 = .ok (.modmul 4 1 3 6) := by decide
theorem test_decode_modinv : decode 0b000000000_010_0_000_0_101_0_001_00100000 = .ok (.modinv 1 5 2) := by decide
theorem test_decode_modred : decode 0b000000000_111_0_000_0_010_0_101_00100001 = .ok (.modred 5 2 7) := by decide
theorem test_decode_modexp : decode 0b000000000_011_0_110_0_000_0_001_00110000 = .ok (.modexp 1 0 6 3) := by decide
/-- The words of program P1, P2 and P4 of spec/95_test_vectors.md. -/
theorem test_encode_program_words :
    encode (.modexp 4 0 1 2) = 0x00210430 ∧ encode (.modinv 2 0 1) = 0x00100220 ∧ encode (.frommont 4 3 2) = 0x00203412 := by
  decide
theorem test_table_word_is_32_bits : decodeTableWord 32 0x00044413 = some (.modmul 4 4 4 0) := by decide
theorem test_pseudo_expansions :
    Pseudo.expand (.modsqr 4 4 0) = .modmul 4 4 4 0 ∧ Pseudo.expand (.montsqr 3 1 2) = .montmul 3 1 1 2 ∧
    Pseudo.expand (.rsaapply 5 4 3 2) = .modexp 5 4 3 2 := by decide
/-- No two rows of the opcode table share a word. -/
theorem test_table_rows_disjoint :
    Opcode.all.Pairwise fun p q => p.tableMatch &&& (p.tableMask &&& q.tableMask) ≠ q.tableMatch &&& (p.tableMask &&& q.tableMask) := by
  decide

/-! ## Assembler (30_encoding.md R79, R80, R82) -/

theorem test_assemble_lower_case :
    assemble ['m', 'o', 'd', 's', 'q', 'r', ' ', 'b', '4', ',', ' ', 'B', '4', ',', 'b', '0'] = some (.modmul 4 4 4 0) := by
  decide +kernel
theorem test_disassemble_other_word :
    disassemble 0x800000FF = ['.', 'w', 'o', 'r', 'd', ' ', '0', 'x', '8', '0', '0', '0', '0', '0', 'F', 'F'] := by
  decide +kernel

/-! ## Commands: spec/95_test_vectors.md section 2, one completion step each -/

theorem test_nop_status : seen (step (s64.withFetchWord 32 0x00000000)) = some (0x002, 0) := by decide +kernel
theorem test_nop_unused_field : seen (step (s64.withFetchWord 32 0x00110100)) = some (0x206, 0) := by decide +kernel
theorem test_mov_copies : seen (step ((s64.setReg 0 0x2A).withFetchWord 32 0x00000101)) = some (0x002, 0x2A) := by
  decide +kernel
theorem test_reserved_opcode : seen (step ((load 1 2 3).withFetchWord 32 0x000000FF)) = some (0x106, 0xDEAD) := by
  decide +kernel
/-- V-M8. -/
theorem test_montmul_wide :
    seen (step ((load 0x2BDC545D6B4B87 0x1234 0x8000000000000001).withFetchWord 32 0x00432110)) =
      some (0x002, 0x70CCA825BD72954E) := by decide +kernel
/-- V-M11. -/
theorem test_montmul_range : seen (step ((load 5 97 97).withFetchWord 32 0x00432110)) = some (0x506, 0xDEAD) := by
  decide +kernel
/-- V-T3. -/
theorem test_tomont_reduces : seen (step ((load (2 ^ 64 - 1) 0 97).withFetchWord 32 0x00402111)) = some (0x002, 71) := by
  decide +kernel
/-- V-T6. -/
theorem test_tomont_even : seen (step ((load 1 0 (2 ^ 63)).withFetchWord 32 0x00402111)) = some (0x406, 0xDEAD) := by
  decide +kernel
/-- V-F5. -/
theorem test_frommont_top :
    seen (step ((load 1 0 (2 ^ 63 + 1)).withFetchWord 32 0x00402112)) = some (0x002, 0x4000000000000000) := by
  decide +kernel
/-- V-F4. -/
theorem test_frommont_modulus_one : seen (step ((load 7 0 1).withFetchWord 32 0x00402112)) = some (0x002, 0) := by
  decide +kernel
/-- V-X3. -/
theorem test_modmul_full_width :
    seen (step ((load (2 ^ 64 - 1) (2 ^ 64 - 1) 97).withFetchWord 32 0x00432113)) = some (0x002, 11) := by decide +kernel
/-- V-X8. -/
theorem test_modmul_zero_modulus : seen (step ((load 5 7 0).withFetchWord 32 0x00432113)) = some (0x306, 0xDEAD) := by
  decide +kernel
/-- V-I12. -/
theorem test_modinv_key :
    seen (step ((load 65537 0 0xFFFFFFE80000006C).withFetchWord 32 0x00402120)) = some (0x002, 0x81817E725D5DA2D9) := by
  decide +kernel
/-- V-I7. -/
theorem test_modinv_modulus_one : seen (step ((load 65537 0 1).withFetchWord 32 0x00402120)) = some (0x606, 0xDEAD) := by
  decide +kernel
/-- V-R5. -/
theorem test_modred_even : seen (step ((load (2 ^ 64 - 1) 0 10).withFetchWord 32 0x00402121)) = some (0x002, 5) := by
  decide +kernel
/-- V-R7. -/
theorem test_modred_zero : seen (step ((load 3 0 0).withFetchWord 32 0x00402121)) = some (0x306, 0xDEAD) := by
  decide +kernel
/-- V-E7. -/
theorem test_modexp_full_width :
    seen (step ((load 3 (2 ^ 64 - 1) (2 ^ 64 - 1)).withFetchWord 32 0x00432130)) = some (0x002, 0x83B58E3F0A83554F) := by
  decide +kernel
/-- V-E3. -/
theorem test_modexp_zero_to_zero : seen (step ((load 0 0 97).withFetchWord 32 0x00432130)) = some (0x002, 1) := by
  decide +kernel
/-- V-C4 with RD = RA: the old value is read, then written. -/
theorem test_mov_onto_itself : seen (step ((s64.setReg 1 0x2A).withFetchWord 32 0x00001101)) = some (0x002, 0x2A) := by
  decide +kernel

/-! ## Bus and status: spec/95_test_vectors.md section 2.5 -/

/-- V-S1. -/
theorem test_reset_reads :
    busRead 0x000 s64 = 0x4D410100 ∧ busRead 0x004 s64 = 0x00080002 ∧ busRead 0x004 State.reset = 0x00080040 ∧
    busRead 0x008 s64 = 0 ∧ busRead 0x00C s64 = 0 ∧ busRead 0x010 s64 = 0 := by decide
/-- V-S2. -/
theorem test_busy_after_acceptance :
    seenCsrs (step { s64 with hostOps := [memWrite 0x010 0] }) = some (0, 1, 0, 0, false) := by decide +kernel
/-- V-S3, V-S4: a CMD write and a limb write to a busy block. -/
theorem test_command_dropped_while_busy :
    seenCsrs (step { accept 0 s64 with hostOps := [memWrite 0x010 0x101], schedule := [.host] }) = some (0, 0x9, 0, 0, false) := by
  decide +kernel
theorem test_limb_dropped_while_busy :
    seenCsrs (step { accept 0 s64 with hostOps := [memWrite 0x1000 7], schedule := [.host] }) = some (0, 0x9, 0, 0, false) := by
  decide +kernel
/-- V-S5. -/
theorem test_status_write_clears_done_and_drop :
    seenCsrs (step { s64 with done := true, drop := true, errcode := .error .modEven, hostOps := [memWrite 0x00C 0xFFFFFFFF] }) =
      some (0, 0x404, 0, 0, false) := by decide +kernel
/-- V-S7. -/
theorem test_enable_asserts_irq_at_once :
    seenCsrs (step { s64 with done := true, hostOps := [memWrite 0x008 1] }) = some (1, 2, 0, 0, true) := by decide +kernel
/-- V-S8. -/
theorem test_soft_reset_wins_over_enable :
    seenCsrs (step { accept 0x00432130 s64 with ie := true, hostOps := [memWrite 0x008 3], schedule := [.host] }) =
      some (0, 0, 0, 0, false) := by decide +kernel
/-- V-S9. -/
theorem test_unused_and_reserved_offsets :
    busRead 0x1008 s64 = 0 ∧ busWrite 0x1008 5 s64 = s64 ∧ busRead 0x0014 s64 = 0 ∧ busRead 0x3000 s64 = 0 := by decide
/-- 20_memory.md R52, R54: the last limb of B7 is its top 32 bits. -/
theorem test_top_limb_of_last_register : (busWrite 0x2C04 0xDEADBEEF s64).reg 7 = 0xDEADBEEF00000000 := by decide
/-- 20_memory.md R55. -/
theorem test_byte_lanes : byteLane 0x11223344 0 = 0x44 ∧ byteLane 0x11223344 3 = 0x11 := by decide
/-- S8 of spec/95_test_vectors.md: the magnitude 00 FF FF FF EA 00 00 00 55. -/
theorem test_key_magnitude_limbs :
    magnitudeLimbs 2 [0x00, 0xFF, 0xFF, 0xFF, 0xEA, 0x00, 0x00, 0x00, 0x55] = some [0x00000055, 0xFFFFFFEA] := by
  decide +kernel
theorem test_undefined_access_refused : isRefused (step { s64 with hostOps := [.read ⟨0x00C, 2⟩] }) = true := by
  decide +kernel
theorem test_hardware_reset_abandons_the_command :
    (assertReset (accept 0x101 s64)).inflight = none ∧ (assertReset (accept 0x101 s64)).busy = false := by decide
/-- 70_reset_and_hazards.md R160: while `rst_n` is low a CMD write and a CTRL write leave the reset values. -/
theorem test_held_reset_accepts_nothing :
    seenHeld (step { s64 with rstLow := true, hostOps := [memWrite 0x010 0x101] }) = some (false, false, 0) ∧
    seenHeld (step { s64 with rstLow := true, hostOps := [memWrite 0x008 1] }) = some (false, false, 0) := by decide +kernel

/-! ## Witnesses: for every statement with hypotheses, states and operands that meet them, clause by clause -/

/-- MOV B1, B0 in flight, the engine to move. -/
def movFlight : State := (s64.setReg 0 0x2A).withFetchWord 32 0x101
/-- MOV B1, B1 in flight. -/
def movSelf : State := (s64.setReg 1 0x2A).withFetchWord 32 0x1101
/-- `rst_n` low, a host operation next. -/
def heldOp (op : BusOp) : State := { s64 with rstLow := true, hostOps := [op] }
/-- MODEXP B1, B2, B3, B4 in flight, the host to move next. -/
def expFlight (ops : List BusOp) : State := { accept 0x00432130 (load 4 13 497) with hostOps := ops, schedule := [.host] }
/-- A record as acceptance leaves it. -/
def flight (a b n : Nat) : State := { s64 with busy := true, inflight := some ⟨0, some a, some b, some n⟩ }
/-- An idle block with a host operation next. -/
def idleOp (op : BusOp) : State := { s64 with hostOps := [op] }
/-- The same with DONE and DROP set and the interrupt enabled. -/
def doneOp (op : BusOp) : State := { s64 with ie := true, done := true, drop := true, hostOps := [op] }

theorem witness_EveryDecodedWordIsTheEncodingOfIt : decode 0x00432130 = .ok (.modexp 1 2 3 4) := by decide

theorem witness_EngineStepRunsTheDecodedCommand :
    (movFlight.mover = .engine ∧ movFlight.busy = true ∧ movFlight.inflight = some (latch 0x101 movFlight) ∧
      decode (latch 0x101 movFlight).word = .ok (.mov 1 0)) ∧
    ({ s64 with schedule := [.engine] } : State).mover = .engine ∧ ({ s64 with schedule := [.engine] } : State).busy = false := by
  decide +kernel

theorem witness_UndecodableCommandCompletesWithItsError :
    ((s64.withFetchWord 32 0xFF).mover = .engine ∧ (s64.withFetchWord 32 0xFF).busy = true ∧
      (s64.withFetchWord 32 0xFF).inflight = some ⟨0xFF, none, none, none⟩ ∧ decode 0xFF = .error .opcode) ∧
    ((s64.withFetchWord 32 0x100).mover = .engine ∧ (s64.withFetchWord 32 0x100).busy = true ∧
      (s64.withFetchWord 32 0x100).inflight = some ⟨0x100, none, none, none⟩ ∧ decode 0x100 = .error .field) := by
  decide +kernel

theorem witness_OnlyAlignedWordAccessesArePerformed :
    (idleOp (.read ⟨0x00E, 4⟩)).mover = .host ∧ (idleOp (.read ⟨0x00E, 4⟩)).hostOps = [.read ⟨0x00E, 4⟩] ∧
    ¬ ((4 : Nat) = 4 ∧ (0x00E : Offset).toNat % 4 = 0) ∧
    (idleOp (.read ⟨0x3FFC, 4⟩)).hostOps = [.read ⟨0x3FFC, 4⟩] ∧ (0x3FFC : Offset).toNat % 4 = 0 ∧
    (idleOp (.write ⟨0x00C, 2⟩ 1)).hostOps = [.write ⟨0x00C, 2⟩ 1] ∧ ¬ ((2 : Nat) = 4 ∧ (0x00C : Offset).toNat % 4 = 0) ∧
    (idleOp (.write ⟨0x000, 4⟩ 1)).hostOps = [.write ⟨0x000, 4⟩ 1] ∧ (0x000 : Offset).toNat % 4 = 0 := by decide

theorem witness_ReadsHaveNoSideEffects :
    (idleOp (memRead 0x3FFC)).mover = .host ∧ (0x3FFC : Offset).toNat % 4 = 0 ∧
    (idleOp (memRead 0x3FFC)).hostOps = [memRead 0x3FFC] := by decide

theorem witness_WaitPollsUntilBusyIsClear :
    ((expFlight [.poll]).mover = .host ∧ (expFlight [.poll]).hostOps = [.poll] ∧ (expFlight [.poll]).busy = true) ∧
    (idleOp .poll).mover = .host ∧ (idleOp .poll).hostOps = [.poll] ∧ (idleOp .poll).busy = false := by decide +kernel

theorem witness_ReadsFollowTheAddressMap :
    s64.LegalWidth ∧ (1 : Nat) < s64.limbs ∧ (State.resetWith 256).LegalWidth ∧ 255 < (State.resetWith 256).limbs := by decide

theorem witness_UnusedOffsetsReadZeroAndIgnoreWrites :
    ((0x0014 : Offset).toNat % 4 = 0 ∧ 0x0014 ≤ (0x0014 : Offset).toNat ∧ (0x0014 : Offset).toNat ≤ 0x0FFF) ∧
    ((0x0FFC : Offset).toNat % 4 = 0 ∧ 0x0014 ≤ (0x0FFC : Offset).toNat ∧ (0x0FFC : Offset).toNat ≤ 0x0FFF) ∧
    ((0x3000 : Offset).toNat % 4 = 0 ∧ 0x3000 ≤ (0x3000 : Offset).toNat) ∧
    ((0x3FFC : Offset).toNat % 4 = 0 ∧ 0x3000 ≤ (0x3FFC : Offset).toNat) ∧
    (s64.limbs ≤ 2 ∧ 2 < 256 ∧ (0x1008 : Offset).toNat = 0x1000 + 0x400 * (0 : RegIx).val + 4 * 2) ∧
    (s64.limbs ≤ 255 ∧ 255 < 256 ∧ (0x2FFC : Offset).toNat = 0x1000 + 0x400 * (7 : RegIx).val + 4 * 255) ∧
    (idleOp (memRead 0x1008)).mover = .host ∧ (idleOp (memRead 0x1008)).hostOps = [memRead 0x1008] ∧
    (idleOp (memWrite 0x1008 5)).hostOps = [memWrite 0x1008 5] := by decide

theorem witness_LimbWriteReplacesItsBitsOrIsDropped :
    (s64.LegalWidth ∧ 1 < s64.limbs ∧ s64.busy = false) ∧ movFlight.LegalWidth ∧ 1 < movFlight.limbs ∧ movFlight.busy = true := by
  decide

theorem witness_CtrlWriteSetsEnableOrSoftResets : (0x3 : Word).getLsbD 1 = true ∧ (0x1 : Word).getLsbD 1 = false := by decide

theorem witness_CommandWriteIsAcceptedOrDropped :
    movFlight.busy = true ∧ s64.busy = false ∧ decode 0x101 = .ok (.mov 1 0) ∧ decode 0xFF = .error .opcode := by decide

theorem witness_RegistersReadUnchangedUntilCompletion :
    (expFlight [memWrite 0x1400 7]).Inv ∧ (expFlight [memWrite 0x1400 7]).busy = true ∧
    1 < (expFlight [memWrite 0x1400 7]).limbs ∧
    ∃ t, step (expFlight [memWrite 0x1400 7]) = .next t ∧ t.busy = true :=
  ⟨by decide +kernel, by decide +kernel, by decide +kernel, _, rfl, by decide +kernel⟩

theorem witness_LoadLineLoadsTheRegister :
    let s : State := { s64 with hostOps := (ScriptLine.ldb 7 (2 ^ 64 - 1)).ops 2 ++ [.poll] }
    s.LegalWidth ∧ s.RegistersFit ∧ 2 ^ 64 - 1 < 2 ^ s.width ∧ s.busy = false ∧ s.rstLow = false ∧ s.schedule = [] ∧
    s.hostOps = (ScriptLine.ldb 7 (2 ^ 64 - 1)).ops s.limbs ++ [.poll] := by decide +kernel

theorem witness_StoreLineReadsTheRegister :
    let s : State := { s64 with hostOps := (ScriptLine.stb 0).ops 2 }
    s.LegalWidth ∧ s.RegistersFit ∧ s.busy = false ∧ s.schedule = [] ∧ s.hostOps = (ScriptLine.stb 0).ops s.limbs ++ [] := by
  decide +kernel

theorem witness_KeyMagnitudeBecomesItsLimbs :
    magnitudeValue [0xFF, 0xFF, 0xFF, 0xFF, 0xFF, 0xFF, 0xFF, 0xFF] < 2 ^ (32 * 2) ∧
    2 ^ (32 * 2) ≤ magnitudeValue [0x01, 0x00, 0x00, 0x00, 0x00, 0x00, 0x00, 0x00, 0x00] := by decide

theorem witness_NopCompletesAndWritesNothing :
    s64.busy = false ∧ movFlight.busy = true ∧ (0x100 : Word).extractLsb' 0 8 = 0 := by decide

theorem witness_MovCopiesTheRegister :
    (flight 0x2A 0 0).inflight = some ⟨0, some 0x2A, some 0, some 0⟩ ∧ (0x00030101 : Word).extractLsb' 0 8 = 0x01 ∧
    movSelf.Inv ∧ movSelf.busy = true ∧ movSelf.cmd = encode (.mov 1 1) := by decide +kernel

theorem witness_MontmulGivesTheMontgomeryProduct :
    ((flight 5 5 0).inflight = some ⟨0, some 5, some 5, some 0⟩ ∧ (0 : Nat) = 0) ∧
    ((flight 5 7 96).inflight = some ⟨0, some 5, some 7, some 96⟩ ∧ (96 : Nat) ≠ 0 ∧ 96 % 2 = 0) ∧
    ((flight 5 97 97).inflight = some ⟨0, some 5, some 97, some 97⟩ ∧ 97 % 2 = 1 ∧ 97 ≤ 97) ∧
    ((flight 5 96 97).inflight = some ⟨0, some 5, some 96, some 97⟩ ∧ 97 % 2 = 1 ∧ 96 < 97) ∧
    ((flight 1 0 1).inflight = some ⟨0, some 1, some 0, some 1⟩ ∧ 1 % 2 = 1 ∧ 0 < 1) ∧
    (0x00210B10 : Word).extractLsb' 0 8 = 0x10 := by decide

theorem witness_TomontMultipliesByTheRadix :
    ((flight 1 0 0).inflight = some ⟨0, some 1, some 0, some 0⟩ ∧ (0 : Nat) = 0) ∧
    ((flight 1 0 2).inflight = some ⟨0, some 1, some 0, some 2⟩ ∧ (2 : Nat) ≠ 0 ∧ 2 % 2 = 0) ∧
    ((flight 1 0 1).inflight = some ⟨0, some 1, some 0, some 1⟩ ∧ 1 % 2 = 1) ∧ (0x00010011 : Word).extractLsb' 0 8 = 0x11 := by
  decide

theorem witness_FrommontDividesByTheRadix :
    ((flight 1 0 0).inflight = some ⟨0, some 1, some 0, some 0⟩ ∧ (0 : Nat) = 0) ∧
    ((flight 1 0 2).inflight = some ⟨0, some 1, some 0, some 2⟩ ∧ (2 : Nat) ≠ 0 ∧ 2 % 2 = 0) ∧
    ((flight 1 0 1).inflight = some ⟨0, some 1, some 0, some 1⟩ ∧ 1 % 2 = 1) ∧ (0x00010012 : Word).extractLsb' 0 8 = 0x12 := by
  decide

theorem witness_ModmulGivesTheExactProductReduced :
    ((flight 5 7 0).inflight = some ⟨0, some 5, some 7, some 0⟩ ∧ (0 : Nat) = 0) ∧
    ((flight 5 7 100).inflight = some ⟨0, some 5, some 7, some 100⟩ ∧ (100 : Nat) ≠ 0 ∧ 100 % 2 = 0) ∧
    ((flight 5 7 1).inflight = some ⟨0, some 5, some 7, some 1⟩ ∧ 1 % 2 = 1) ∧ (0x80000013 : Word).extractLsb' 0 8 = 0x13 := by
  decide

theorem witness_ModinvGivesTheInverseOrItsError :
    ((flight 5 0 0).inflight = some ⟨0, some 5, some 0, some 0⟩ ∧ (0 : Nat) = 0) ∧
    ((flight 5 0 1).inflight = some ⟨0, some 5, some 0, some 1⟩ ∧ (1 : Nat) = 1) ∧
    ((flight 0 0 2).inflight = some ⟨0, some 0, some 0, some 2⟩ ∧ 2 ≤ 2 ∧ Nat.gcd 0 2 ≠ 1) ∧
    ((flight 1 0 2).inflight = some ⟨0, some 1, some 0, some 2⟩ ∧ 2 ≤ 2 ∧ Nat.gcd 1 2 = 1) ∧
    (0x00352120 : Word).extractLsb' 0 8 = 0x20 := by decide

theorem witness_ModredReducesByAnyModulus :
    ((flight 3 0 0).inflight = some ⟨0, some 3, some 0, some 0⟩ ∧ (0 : Nat) = 0) ∧
    ((flight 3 0 1).inflight = some ⟨0, some 3, some 0, some 1⟩ ∧ (1 : Nat) ≠ 0) ∧ (0x00010021 : Word).extractLsb' 0 8 = 0x21 := by
  decide

theorem witness_ModexpGivesThePowerReduced :
    ((flight 2 3 0).inflight = some ⟨0, some 2, some 3, some 0⟩ ∧ (0 : Nat) = 0) ∧
    ((flight 2 3 100).inflight = some ⟨0, some 2, some 3, some 100⟩ ∧ (100 : Nat) ≠ 0 ∧ 100 % 2 = 0) ∧
    ((flight 0 0 97).inflight = some ⟨0, some 0, some 0, some 97⟩ ∧ 97 % 2 = 1) ∧ (0x80432130 : Word).extractLsb' 0 8 = 0x30 := by
  decide

theorem witness_EveryCompletionUpdatesStatusAndAtMostItsDestination :
    movFlight.mover = .engine ∧ movFlight.busy = true ∧ movFlight.inflight = some (latch 0x101 movFlight) ∧
    ∃ t, step movFlight = .next t ∧ t.errcode = .ok :=
  ⟨by decide, by decide, by decide +kernel, _, rfl, by decide +kernel⟩

theorem witness_ErrorCompletionChangesOnlyStatus :
    let s := (load 5 7 0).withFetchWord 32 0x00432113
    s.mover = .engine ∧ s.busy = true ∧ ∃ t, step s = .next t ∧ t.errcode = .error .modZero :=
  ⟨by decide +kernel, by decide +kernel, _, rfl, by decide +kernel⟩

theorem witness_HardwareResetClearsTheControlState :
    ({ movFlight with schedule := [.resetLow] } : State).HardwareResets ∧
    ({ s64 with rstLow := true, schedule := [.resetHigh] } : State).HardwareResets ∧
    (({ s64 with schedule := [.resetHigh] } : State).mover = .resetHigh ∧ s64.rstLow = false) ∧
    ((heldOp (memWrite 0x010 0)).Inv ∧ (heldOp (memWrite 0x010 0)).mover = .host ∧ (heldOp (memWrite 0x010 0)).rstLow = true ∧
      (heldOp (memWrite 0x010 0)).RegistersFit ∧ (heldOp (memWrite 0x010 0)).hostOps = [memWrite 0x010 0] ∧
      ∀ (k : RegIx) (i : Fin 2), (0x010 : Offset).toNat ≠ 0x1000 + 0x400 * k.val + 4 * i.val) ∧
    (heldOp (memWrite 0x2C04 0)).hostOps = [memWrite 0x2C04 0] ∧ (0x2C04 : Offset).toNat % 4 = 0 := by decide +kernel

theorem witness_ResetsLeaveTheBlockIdle : softReset movFlight ∈ [State.resetWith 2, softReset movFlight, assertReset movFlight] := by
  simp

theorem witness_InterruptFollowsEnableAndDone :
    ((0xA : Word).getLsbD 1 = true) ∧ ((0x2 : Word).getLsbD 0 = false ∧ (0x2 : Word).getLsbD 1 = true) ∧
    ((0x0 : Word).getLsbD 0 = false ∧ (0x0 : Word).getLsbD 1 = false) ∧
    ((0x1 : Word).getLsbD 0 = true ∧ (0x1 : Word).getLsbD 1 = false) ∧ s64.busy = false := by decide

theorem witness_LegalStateAfterReset : legalLimbs 2 ∧ legalLimbs 256 := by decide

theorem witness_EveryStepKeepsTheLegalState : (expFlight [.poll]).Inv ∧ ∃ t, step (expFlight [.poll]) = .next t :=
  ⟨by decide +kernel, _, rfl⟩

theorem witness_LegalStateTakesANextStep :
    (expFlight [.poll]).Inv ∧ (expFlight [.poll]).HostBehaves ∧ movFlight.Inv ∧ movFlight.HostBehaves := by decide +kernel

theorem witness_BusyChangesExactlyByAcceptanceCompletionAndReset :
    (∃ t, step (idleOp (memWrite 0x010 0)) = .next t ∧ t.busy = true) ∧ (idleOp (memWrite 0x010 0)).busy = false ∧
    (∃ t, step movFlight = .next t ∧ t.busy = false) ∧ movFlight.busy = true ∧
    (∃ t, step (expFlight [memWrite 0x008 2]) = .next t ∧ t.busy = false) ∧ (expFlight [memWrite 0x008 2]).busy = true :=
  ⟨⟨_, rfl, by decide +kernel⟩, by decide, ⟨_, rfl, by decide +kernel⟩, by decide, ⟨_, rfl, by decide +kernel⟩, by decide⟩

theorem witness_StatusFieldsAndEnableChangeExactlyAsStated :
    ((idleOp (memWrite 0x008 1)).HostWrites 0x008 1 ∧ ∃ t, step (idleOp (memWrite 0x008 1)) = .next t ∧ t.ie ≠ false) ∧
    ((expFlight [memWrite 0x008 3]).HostWrites 0x008 3 ∧ (0x3 : Word).getLsbD 1 = true ∧
      ∃ t, step (expFlight [memWrite 0x008 3]) = .next t) ∧
    ((idleOp (memWrite 0x010 0xFF)).HostWrites 0x010 0xFF ∧ (idleOp (memWrite 0x010 0xFF)).busy = false) ∧
    (({ movFlight with schedule := [.resetLow] } : State).HardwareResets ∧
      ∃ t, step { movFlight with schedule := [.resetLow] } = .next t) ∧
    ((expFlight [memWrite 0x2C04 7]).HostWrites 0x2C04 7 ∧ (expFlight [memWrite 0x2C04 7]).busy = true ∧
      (expFlight [memWrite 0x2C04 7]).drop = false ∧ 1 < (expFlight [memWrite 0x2C04 7]).limbs ∧
      (0x2C04 : Offset).toNat = 0x1000 + 0x400 * (7 : RegIx).val + 4 * 1 ∧
      ∃ t, step (expFlight [memWrite 0x2C04 7]) = .next t ∧ t.drop = true) ∧
    (∃ t, step (s64.withFetchWord 32 0xFF) = .next t ∧ t.errcode ≠ (s64.withFetchWord 32 0xFF).errcode) ∧
    (movFlight.done = false ∧ movFlight.drop = false ∧ ∃ t, step movFlight = .next t) ∧
    (doneOp (memWrite 0x00C 0xA)).done = true ∧ (doneOp (memWrite 0x00C 0xA)).drop = true ∧
    ∃ t, step (doneOp (memWrite 0x00C 0xA)) = .next t :=
  ⟨⟨by decide, _, rfl, by decide⟩, ⟨by decide, by decide, _, rfl⟩, by decide, ⟨by decide, _, rfl⟩,
    ⟨by decide, by decide, by decide, by decide, by decide, _, rfl, by decide +kernel⟩, ⟨_, rfl, by decide +kernel⟩,
    ⟨by decide, by decide, _, rfl⟩, by decide, by decide, _, rfl⟩

theorem witness_CmdHoldsTheLastAcceptedWord :
    ((idleOp (memWrite 0x010 0x101)).HostWrites 0x010 0x101 ∧
      (idleOp (memWrite 0x010 0x101)).busy = false ∧ ∃ t, step (idleOp (memWrite 0x010 0x101)) = .next t ∧ t.cmd ≠ 0) ∧
    ((expFlight [memWrite 0x008 2]).HostWrites 0x008 2 ∧ (0x2 : Word).getLsbD 1 = true ∧
      ∃ t, step (expFlight [memWrite 0x008 2]) = .next t) :=
  ⟨⟨by decide, by decide, _, rfl, by decide⟩, by decide, by decide, _, rfl⟩

theorem witness_InterruptRisesOnlyByCompletionOrEnable :
    let s : State := { movFlight with ie := true }
    s.irq = false ∧ ∃ t, step s = .next t ∧ t.irq = true :=
  ⟨by decide, _, rfl, by decide +kernel⟩

theorem witness_BigRegisterChangesOnlyByWriteResultOrReset :
    (∃ t, step movFlight = .next t ∧ t.reg 1 ≠ movFlight.reg 1) ∧
    ∃ t, step (idleOp (memWrite 0x2C04 1)) = .next t ∧ t.reg 7 ≠ (idleOp (memWrite 0x2C04 1)).reg 7 :=
  ⟨⟨_, rfl, by decide +kernel⟩, _, rfl, by decide +kernel⟩

theorem witness_NoStepChangesTheWidth : ∃ t, step movFlight = .next t := ⟨_, rfl⟩

theorem witness_HostCannotDisturbTheCommandInFlight :
    (expFlight [memWrite 0x010 0]).ResetHolds ∧ (expFlight [memWrite 0x010 0]).mover = .host ∧ (expFlight [memWrite 0x010 0]).busy = true ∧
    ∃ t, step (expFlight [memWrite 0x010 0]) = .next t ∧ t.busy = true :=
  ⟨by decide, by decide, by decide, _, rfl, by decide +kernel⟩

theorem witness_PlacementOfCompletionDoesNotChangeItsResult :
    (expFlight [memWrite 0x1400 7]).Inv ∧ (expFlight [memWrite 0x1400 7]).mover = .host ∧
    (expFlight [memWrite 0x1400 7]).busy = true ∧ (∃ t, step (expFlight [memWrite 0x1400 7]) = .next t ∧ t.busy = true) ∧
    (expFlight [memWrite 0x1400 7]).inflight = some (latch 0x00432130 (load 4 13 497)) ∧
    decode (latch 0x00432130 (load 4 13 497)).word = .ok (.modexp 1 2 3 4) :=
  ⟨by decide +kernel, by decide, by decide, ⟨_, rfl, by decide +kernel⟩, by decide +kernel, by decide +kernel⟩

theorem witness_EngineStateAndIdleTurnsAreUnobservable :
    ({ expFlight [] with schedule := [.work] } : State).mover = .work ∧ (expFlight []).mover = .host ∧
    (expFlight []).hostOps = [] := by decide

theorem witness_EveryStepKeepsTheEngineOnItsCommand :
    movFlight.Inv ∧ movFlight.EngineTracks ∧ ∃ t, step movFlight = .next t :=
  ⟨by decide +kernel, fun _ => ⟨0, by decide +kernel⟩, _, rfl⟩

/-- MODRED in flight: one hidden turn ends its work. -/
theorem witness_EngineAnswerIsTheCommandsResult :
    let s := accept 0x00402121 (load 100 0 7)
    s.Inv ∧ s.inflight = some (latch 0x00402121 (load 100 0 7)) ∧
    decode (latch 0x00402121 (load 100 0 7)).word = .ok (.modred 1 2 4) ∧ (Instr.modred 1 2 4).dest? = some 1 ∧
    Engine.workFor s.limbs 1 (Engine.load s.limbs (latch 0x00402121 (load 100 0 7))) = .finished (some 2) := by decide +kernel

theorem witness_EngineWorkIsLoadedWhereNeededAndTerminates :
    Engine.load 2 (latch 0x00402112 (load 7 0 2)) = .idle ∧ Engine.load 2 (latch 0x00402112 (load 7 0 1)) ≠ .idle ∧
    Engine.workFor 2 3 (Engine.load 2 (latch 0x00402112 (load 7 0 1))) = .finished (some 0) := by decide +kernel

theorem witness_MontmulReferenceIsTheMontgomeryProduct :
    97 % 2 = 1 ∧ 2 ^ 64 - 1 < 2 ^ (32 * 2) ∧ 96 < 97 ∧ 1 % 2 = 1 ∧ 0 < 1 := by decide

theorem witness_MontgomeryRealisationsAgree : 3 % 2 = 1 ∧ 3 ≤ 3 ∧ 2 ^ 64 - 1 < 2 ^ (32 * 2) := by decide

theorem witness_ModinvReferenceAgrees : 2 ≤ 2 := by decide

theorem witness_ModexpReferenceAgrees :
    (3 % 2 = 1 ∧ 3 ≤ 3 ∧ 3 < 2 ^ (32 * 2)) ∧ (2 ^ 64 - 1) % 2 = 1 ∧ 3 ≤ 2 ^ 64 - 1 ∧ 2 ^ 64 - 1 < 2 ^ (32 * 2) := by decide

theorem witness_FrommontUndoesTomont : 1 % 2 = 1 := by decide

/-- The key of program P2 with `p = 61`, `q = 53`. -/
theorem witness_RsaRoundTripReturnsTheMessage :
    Nat.Prime 61 ∧ Nat.Prime 53 ∧ 61 ≠ 53 ∧ 61 * 53 % 2 = 1 ∧ 65537 * 2753 % ((61 - 1) * (53 - 1)) = 1 ∧ 65 < 61 * 53 ∧
    (flight 65 65537 (61 * 53)).inflight = some ⟨0, some 65, some 65537, some (61 * 53)⟩ ∧
    (∃ t, exec (.modexp 1 2 3 4) (flight 65 65537 (61 * 53)) = .next t ∧ t.reg 1 = 2790) ∧
    (flight 2790 2753 (61 * 53)).inflight = some ⟨0, some 2790, some 2753, some (61 * 53)⟩ :=
  ⟨by norm_num, by norm_num, by decide, by decide, by decide +kernel, by decide, by decide, ⟨_, rfl, by decide +kernel⟩, by decide⟩

end Sys2Proof.Tests
end

/-! SUPPORT. Proofs of the obligations about the state: the CSRs, the steps and the invariant. -/

namespace Sys2Proof.Machine

/-! ## Writes at the offsets of the CSRs (20_memory.md R52) -/

theorem busWrite_ctrl (v : Word) (s : State) : busWrite 0x008 v s = writeCtrl v s := rfl
theorem busWrite_status (v : Word) (s : State) : busWrite 0x00C v s = writeStatus v s := rfl
theorem busWrite_cmd (v : Word) (s : State) : busWrite 0x010 v s = writeCmd v s := rfl

theorem writeCtrl_reset {v : Word} (h : v.getLsbD 1 = true) (s : State) : writeCtrl v s = clearControl s := by
  simp [writeCtrl, h]

theorem writeCtrl_enable {v : Word} (h : v.getLsbD 1 = false) (s : State) :
    writeCtrl v s = { s with ie := v.getLsbD 0 } := if_neg (Bool.eq_false_iff.1 h)

theorem writeCmd_busy {s : State} (h : s.busy = true) (v : Word) : writeCmd v s = dropWrite s := by
  simp [writeCmd, h]

theorem writeCmd_idle {s : State} (h : s.busy = false) (v : Word) : writeCmd v s = accept v s := by
  simp [writeCmd, h]

/-! ## The invariant (O40, O41) -/

/-- The host's plans, its record of reads and the schedule are no part of the invariant. -/
theorem inv_agents {s : State} (h : s.Inv) (ops : List BusOp) (reads : List Word) (turns : List Turn) :
    State.Inv { s with hostOps := ops, hostReads := reads, schedule := turns } := h

theorem State.Inv.legalWidth {s : State} (h : s.Inv) : s.LegalWidth := h.1
theorem State.Inv.registersFit {s : State} (h : s.Inv) : s.RegistersFit := h.2.1
theorem State.Inv.statusFresh {s : State} (h : s.Inv) : s.StatusFresh := h.2.2.2.1
theorem State.Inv.resetHolds {s : State} (h : s.Inv) : s.ResetHolds := h.2.2.2.2.2

/-- A busy block is not held in reset. -/
theorem rstLow_of_busy {s : State} (h : s.ResetHolds) (hb : s.busy = true) : s.rstLow = false := by
  cases hr : s.rstLow with
  | false => rfl
  | true =>
    obtain ⟨-, hidle, -⟩ := h hr
    exact absurd hb (by simp [hidle])

theorem inv_finish {s : State} (c : CompletionCode) (hw : s.LegalWidth) (hf : s.RegistersFit) (hr : s.rstLow = false) :
    (finish c s).Inv :=
  ⟨hw, hf, rfl, nofun, fun _ => rfl, fun h => absurd h (by simp [hr])⟩

theorem inv_clearControl {s : State} (hw : s.LegalWidth) (hf : s.RegistersFit) : (clearControl s).Inv :=
  ⟨hw, hf, rfl, nofun, fun _ => rfl, fun _ => ⟨rfl, rfl, rfl, rfl, rfl, rfl⟩⟩

/-- Either edge of a hardware reset, `low` being the level it leaves. -/
theorem inv_hardwareReset {s : State} (hw : s.LegalWidth) (low : Bool) :
    State.Inv { drawRegs (clearControl s) with rstLow := low } :=
  inv_clearControl (s := { drawRegs s with rstLow := low }) hw (reg_drawRegs_lt s)

theorem inv_accept {s : State} (hw : s.LegalWidth) (hf : s.RegistersFit) (hr : s.rstLow = false) (w : Word) :
    (accept w s).Inv :=
  ⟨hw, hf, rfl, fun _ => ⟨rfl, rfl⟩, nofun, fun h => absurd h (by simp [hr])⟩

/-- With nothing in flight the registers may change to anything that fits. -/
theorem inv_idle_registers {s : State} (h : s.Inv) (hb : s.busy = false) (rs : Vector Nat 8) (d : Nat)
    (hf : ∀ k : RegIx, rs.get k < 2 ^ s.width) : State.Inv { s with regs := rs, draws := d } := by
  obtain ⟨hw, -, hm, hs, he, hh⟩ := h
  refine ⟨hw, hf, ?_, hs, he, hh⟩
  simpa [State.FlightMatches, hb] using hm

theorem inv_setReg {s : State} (h : s.Inv) (hb : s.busy = false) (k : RegIx) {v : Nat} (hv : v < 2 ^ s.width) :
    (s.setReg k v).Inv := by
  refine inv_idle_registers h hb _ s.draws fun j => ?_
  have hj : (s.setReg k v).reg j < 2 ^ s.width := by
    rw [reg_setReg]
    split
    · exact hv
    · exact h.registersFit j
  exact hj

theorem inv_drawRegs {s : State} (h : s.Inv) (hb : s.busy = false) : (drawRegs s).Inv :=
  inv_idle_registers h hb _ _ (reg_drawRegs_lt s)

/-- With `rst_n` high IE, DONE and DROP are free, but for DONE while a command is in flight. -/
theorem inv_flags {s : State} (h : s.Inv) (hr : s.rstLow = false) (e d x : Bool) (hd : s.busy = true → d = false) :
    State.Inv { s with ie := e, done := d, drop := x } := by
  obtain ⟨hw, hf, hm, hs, he, -⟩ := h
  exact ⟨hw, hf, hm, fun hb => ⟨hd hb, (hs hb).2⟩, he, fun h => absurd h (by simp [hr])⟩

theorem inv_workStep {s : State} (h : s.Inv) : (workStep s).Inv := by
  obtain ⟨hw, hf, hm, hs, he, hh⟩ := h
  refine ⟨hw, hf, hm, hs, fun hb => ?_, hh⟩
  rw [workStep_engine, he hb]
  rfl

theorem inv_busWrite {s : State} (h : s.Inv) (hr : s.rstLow = false) {off : Offset} (ha : off.toNat % 4 = 0)
    (v : Word) : (busWrite off v s).Inv := by
  have hfresh := h.statusFresh
  cases busWrite_cases off v s ha with
  | ignored ht => rwa [ht]
  | softReset _ _ ht => rw [ht]; exact inv_clearControl h.legalWidth h.registersFit
  | enable _ _ ht | dropped _ _ ht => rw [ht]; exact inv_flags h hr _ _ _ fun hb => (hfresh hb).1
  | status _ ht => rw [ht]; exact inv_flags h hr _ _ _ fun hb => by simp [(hfresh hb).1]
  | accepted _ _ ht => rw [ht]; exact inv_accept h.legalWidth h.registersFit hr v
  | limb k i _ hi _ hb ht => rw [ht]; exact inv_setReg h hb k (replaceLimb_lt v (h.registersFit k) hi)

theorem inv_heldWrite {s : State} (h : s.Inv) (hr : s.rstLow = true) {off : Offset} (ha : off.toNat % 4 = 0) :
    (heldWrite off s).Inv := by
  obtain ⟨-, hidle, -⟩ := h.resetHolds hr
  obtain ht | ⟨ht, -⟩ := heldWrite_cases off s ha
  · rwa [ht]
  · rw [ht]; exact inv_drawRegs h hidle

/-- A result fits the width, because the operands in flight do. -/
theorem inv_completed {i : Instr} {s t : State} (h : s.Inv) (hb : s.busy = true) (hc : Completed i s t) : t.Inv := by
  have hr := rstLow_of_busy h.resetHolds hb
  cases hc with
  | nothing _ ht | error _ ht => rw [ht]; exact inv_finish _ h.legalWidth h.registersFit hr
  | result rd v _ hv ht =>
    rw [ht]
    refine inv_finish _ h.legalWidth (fun k => ?_) hr
    rw [reg_setReg]
    split
    · exact hv (operandsFit_of_inv h)
    · exact h.registersFit k

/-- Settles O41: every step is one of the shared operations, each of which keeps the invariant. -/
theorem everyStepKeepsTheLegalState : Obligations.EveryStepKeepsTheLegalState := by
  intro s t hs h
  have hadv : s.advance.Inv := hs
  have hnext (rest : List BusOp) : State.Inv { s.advance with hostOps := rest } := hs
  cases step_next h with
  | hostIdle _ _ ht | enginePasses _ _ ht | notHeld _ _ ht => rwa [ht]
  | hostRead _ _ _ _ _ ht | hostPoll _ _ _ ht => rw [ht]; exact inv_agents hs _ _ _
  | hostWrite off v rest _ _ ha hr ht => rw [ht]; exact inv_busWrite (hnext rest) hr ha v
  | heldWrite off v rest _ _ ha hr ht => rw [ht]; exact inv_heldWrite (hnext rest) hr ha
  | undecodable f e _ hb _ _ ht =>
    rw [ht]
    exact inv_finish _ hs.legalWidth hs.registersFit (rstLow_of_busy hs.resetHolds hb)
  | executed f i _ hb _ _ _ hc => exact inv_completed hadv hb hc
  | worked _ ht => rw [ht]; exact inv_workStep hadv
  | asserted _ ht | released _ _ ht => rw [ht]; exact inv_hardwareReset hs.legalWidth _

theorem inv_resetWith {limbs : Nat} (h : legalLimbs limbs) : (State.resetWith limbs).Inv := by
  have hf : (State.resetWith limbs).RegistersFit := fun k => by
    have hz : (State.resetWith limbs).reg k = 0 := by simp [State.reg, State.resetWith, Vector.get_eq_getElem]
    rw [hz]
    exact Nat.two_pow_pos _
  exact ⟨h, hf, rfl, nofun, fun _ => rfl, nofun⟩

/-- Settles O40: a register holds 0, which fits every width, and nothing is in flight. -/
theorem legalStateAfterReset : Obligations.LegalStateAfterReset := by
  refine ⟨?_, fun _ h => inv_resetWith h⟩
  rw [State.reset]
  exact inv_resetWith (by decide)

/-! ## Single writes and the words they show (O15, O19, O20, O21) -/

/-- Settles O19: `writeStatus`, its masks read as conditions. -/
theorem statusWriteClearsDoneAndDropOnly : Obligations.StatusWriteClearsDoneAndDropOnly := by
  intro s v
  have clear (b c : Bool) : (b && !c) = if c then false else b := by cases c <;> simp
  rw [busWrite_status, writeStatus, clear, clear]

/-- Bit 1 of CTRL, SOFT_RESET, is above IE and reads 0 (10_state.md R25). -/
theorem ctrlWord_softReset (s : State) : (ctrlWord s).getLsbD 1 = false := by
  cases h : s.ie <;> simp [ctrlWord, h]

/-- Settles O20: the two branches of `writeCtrl`. -/
theorem ctrlWriteSetsEnableOrSoftResets : Obligations.CtrlWriteSetsEnableOrSoftResets := by
  intro s v
  refine ⟨fun h => ?_, fun h => ?_, ctrlWord_softReset s⟩
  · rw [busWrite_ctrl, writeCtrl_reset h, afterClear_eq]
  · rw [busWrite_ctrl, writeCtrl_enable h]

/-- Settles O21: the accepting branch latches the record, which `latch_of_decode` and `latch_of_error` write out. -/
theorem commandWriteIsAcceptedOrDropped : Obligations.CommandWriteIsAcceptedOrDropped := by
  intro s w
  refine ⟨fun hb => ?_, fun hb => ⟨fun i hd => ?_, fun e hd => ?_⟩⟩
  · rw [busWrite_cmd, writeCmd_busy hb, dropWrite]
  · rw [busWrite_cmd, writeCmd_idle hb, ← afterAccept_latch, latch_of_decode hd]
  · rw [busWrite_cmd, writeCmd_idle hb, ← afterAccept_latch, latch_of_error hd]

/-- ERRCODE is OK or one of the six errors (60_exceptions.md R141). -/
theorem completionCode_bits_le (c : CompletionCode) : c.bits.toNat ≤ 6 := by
  cases c with
  | ok => decide
  | error e => cases e <;> decide

/-- Every bit of STATUS (10_state.md R27 to R32). -/
theorem statusWord_getLsbD (s : State) (i : Nat) :
    (statusWord s).getLsbD i =
      if i = 0 then s.busy else if i = 1 then s.done else if i = 2 then s.err else if i = 3 then s.drop
      else if i < 8 then false else if i < 12 then s.errcode.bits.getLsbD (i - 8) else false := by
  change BitVec.getLsbD (w := 20 + 4 + 4 + 1 + 1 + 1 + 1)
    (0#20 ++ s.errcode.bits ++ 0#4 ++ BitVec.ofBool s.drop ++ BitVec.ofBool s.err ++ BitVec.ofBool s.done ++
      BitVec.ofBool s.busy) i = _
  simp only [BitVec.getLsbD_append, BitVec.getLsbD_zero, BitVec.getLsbD_ofBool, Nat.sub_sub]
  grind

theorem statusWord_errcode (s : State) : (statusWord s).extractLsb' 8 4 = s.errcode.bits := by
  apply BitVec.eq_of_getLsbD_eq
  intro i hi
  rw [BitVec.getLsbD_extractLsb', statusWord_getLsbD]
  grind

theorem statusWord_reserved_low (s : State) : (statusWord s).extractLsb' 4 4 = 0 := by
  apply BitVec.eq_of_getLsbD_eq
  intro i hi
  rw [BitVec.getLsbD_extractLsb', statusWord_getLsbD]
  grind

theorem statusWord_reserved_high (s : State) : (statusWord s).extractLsb' 12 20 = 0 := by
  apply BitVec.eq_of_getLsbD_eq
  intro i hi
  rw [BitVec.getLsbD_extractLsb', statusWord_getLsbD]
  grind

/-- Settles O15: the word bit by bit; ERR is defined by the code that bits 11:8 show. -/
theorem statusWordShowsItsFields : Obligations.StatusWordShowsItsFields := by
  intro s
  refine ⟨statusWord_getLsbD s 0, statusWord_getLsbD s 1, ?_, statusWord_getLsbD s 3, statusWord_reserved_low s,
    statusWord_reserved_high s, statusWord_errcode s, ?_⟩
  · have herr : (statusWord s).getLsbD 2 = s.err := statusWord_getLsbD s 2
    rw [herr, statusWord_errcode, State.err, bne_iff_ne]
  · rw [statusWord_errcode]
    exact completionCode_bits_le s.errcode

/-! ## The engine's turn (O8, O10, O35) -/

theorem engineTurn_idle {s : State} (hb : s.busy = false) : engineTurn s = .next s := by
  simp [engineTurn, hb]

theorem engineTurn_of_decode {s : State} {f : Inflight} {i : Instr} (hb : s.busy = true)
    (hf : s.inflight = some f) (hd : decode f.word = .ok i) : engineTurn s = exec i s := by
  simp [engineTurn, hb, hf, hd]

theorem engineTurn_of_error {s : State} {f : Inflight} {e : DecodeError} (hb : s.busy = true)
    (hf : s.inflight = some f) (hd : decode f.word = .error e) :
    engineTurn s = .next (finish (.error (errorOfDecode e)) s) := by
  simp [engineTurn, hb, hf, hd]

theorem step_of_engine {s : State} (hm : s.mover = .engine) : step s = engineTurn s.advance := by
  simp [step, hm, takeTurn]

/-- Settles O8: the engine's step is `engineTurn` of the state with the turn taken. -/
theorem engineStepRunsTheDecodedCommand : Obligations.EngineStepRunsTheDecodedCommand := by
  intro s f i hm
  rw [step_of_engine hm]
  exact ⟨fun hb hf hd => engineTurn_of_decode hb hf hd, fun hb => engineTurn_idle hb⟩

theorem build_parts (i : Instr) :
    i.opcode.build (toRegIx (usedField i.dest?)) (toRegIx (usedField i.srcA?)) (toRegIx (usedField i.srcB?))
      (toRegIx (usedField i.modulus?)) = i := by
  cases i <;> rfl

theorem fieldUse (i : Instr) : Laws.FieldUse.Statement i := by
  apply Laws.FieldUse.of_uses <;> cases i <;> rfl

/-- A command's word passes every check of the decoder, and its fields are its parts (30_encoding.md R76). -/
theorem decode_encode (i : Instr) : decode (encode i) = .ok i := by
  obtain ⟨-, -, -, -, hr, hu⟩ := fieldUse i
  have hop : opcodeOf (fieldOp (encode i)) = some i.opcode := by simp [encode]
  simp only [decode, hop, hr, hu, Bool.and_self, if_true]
  simp only [encode, fieldRd_packWord, fieldRa_packWord, fieldRb_packWord, fieldRn_packWord, build_parts]

theorem step_withFetchWord {w : Word} {i : Instr} (hd : decode w = .ok i) (s : State) :
    step (s.withFetchWord 32 w.toNat) = exec i (accept w { s with rstLow := false }) := by
  have hw : BitVec.ofNat 32 (w.toNat % 2 ^ 32) = w := by
    rw [Nat.mod_eq_of_lt w.isLt, BitVec.ofNat_toNat, BitVec.setWidth_eq]
  rw [State.withFetchWord, hw, step_of_engine rfl]
  exact engineTurn_of_decode rfl rfl (by rw [latch_word, hd])

/-- Settles O10: the word placed decodes to the command, and its record holds the command's sources. -/
theorem placedCommandRunsNext : Obligations.PlacedCommandRunsNext := by
  intro s i
  rw [step_withFetchWord (decode_encode i), ← afterAccept_latch, latch_of_decode (decode_encode i)]
  rfl

/-- Settles O35: a word that does not decode raises its error, and one that does completes as `Completed` says. -/
theorem everyCompletionUpdatesStatusAndAtMostItsDestination :
    Obligations.EveryCompletionUpdatesStatusAndAtMostItsDestination := by
  intro s t f hm hb hf h
  rw [step_of_engine hm] at h
  cases hd : decode f.word with
  | error e =>
    rw [engineTurn_of_error (s := s.advance) hb hf hd] at h
    cases h
    exact ⟨⟨_, rfl⟩, fun _ => rfl, nofun⟩
  | ok i =>
    rw [engineTurn_of_decode (s := s.advance) hb hf hd] at h
    cases exec_next h with
    | nothing hi ht => subst ht; exact ⟨⟨_, rfl⟩, fun _ => rfl, fun _ => ⟨i, rfl, .inl ⟨hi, rfl⟩⟩⟩
    | result rd v hi _ ht =>
      subst ht
      exact ⟨⟨_, rfl⟩, fun hn => absurd rfl hn, fun _ => ⟨i, rfl, .inr ⟨rd, v, hi, rfl⟩⟩⟩
    | error e ht => subst ht; exact ⟨⟨_, rfl⟩, fun _ => rfl, nofun⟩

/-! ## The control fields after a write, by the place it reaches -/

/-- A place whose writes are dropped while BUSY = 1 (10_state.md R30). -/
def Place.dropsWhileBusy : Place → Bool
  | .cmd | .limb _ _ => true
  | .id | .param | .ctrl | .status | .unusedLimb | .reserved => false

/-- What a write of `v` at place `p` does to each control field (10_state.md R24 to R33). -/
structure ControlAfterWrite (p : Place) (v : Word) (s t : State) : Prop where
  ie : t.ie = if p = .ctrl then v.getLsbD 0 && !v.getLsbD 1 else s.ie
  busy : t.busy = if p = .ctrl ∧ v.getLsbD 1 then false else if p = .cmd then true else s.busy
  done : t.done =
    if (p = .ctrl ∨ p = .status) ∧ v.getLsbD 1 ∨ p = .cmd ∧ s.busy = false then false else s.done
  drop : t.drop = if p = .ctrl ∧ v.getLsbD 1 ∨ p = .status ∧ v.getLsbD 3 then false
    else s.drop || s.busy && p.dropsWhileBusy
  errcode : t.errcode = if p = .ctrl ∧ v.getLsbD 1 ∨ p = .cmd ∧ s.busy = false then .ok else s.errcode
  cmd : t.cmd = if p = .ctrl ∧ v.getLsbD 1 then 0 else if p = .cmd ∧ s.busy = false then v else s.cmd

theorem writeCtrl_control (v : Word) (s : State) : ControlAfterWrite .ctrl v s (writeCtrl v s) := by
  cases h : v.getLsbD 1 with
  | true => rw [writeCtrl_reset h]; constructor <;> simp [h, -BitVec.getLsbD_eq_getElem]
  | false => rw [writeCtrl_enable h]; constructor <;> simp [Place.dropsWhileBusy, h, -BitVec.getLsbD_eq_getElem]

theorem writeStatus_control (v : Word) (s : State) : ControlAfterWrite .status v s (writeStatus v s) := by
  constructor <;> simp [Place.dropsWhileBusy, Bool.and_comm]

theorem writeCmd_control (v : Word) (s : State) : ControlAfterWrite .cmd v s (writeCmd v s) := by
  cases h : s.busy with
  | true => rw [writeCmd_busy h]; constructor <;> simp [Place.dropsWhileBusy, h]
  | false => rw [writeCmd_idle h]; constructor <;> simp [Place.dropsWhileBusy, h]

theorem writeLimb_control (k : RegIx) (i : Nat) (v : Word) (s : State) :
    ControlAfterWrite (.limb k i) v s (writeLimb k i v s) := by
  unfold writeLimb
  cases h : s.busy <;> constructor <;> simp [Place.dropsWhileBusy, h]

theorem busWrite_control (off : Offset) (v : Word) (s : State) :
    ControlAfterWrite (place s.limbs off) v s (busWrite off v s) := by
  unfold busWrite
  cases place s.limbs off with
  | id | param | unusedLimb | reserved => constructor <;> simp [Place.dropsWhileBusy]
  | ctrl => exact writeCtrl_control v s
  | status => exact writeStatus_control v s
  | cmd => exact writeCmd_control v s
  | limb k i => exact writeLimb_control k i v s

theorem place_ctrl_iff {limbs : Nat} {off : Offset} : place limbs off = .ctrl ↔ off = 0x008 :=
  ⟨place_eq_ctrl, fun h => h ▸ place_ctrl limbs⟩

theorem place_status_iff {limbs : Nat} {off : Offset} : place limbs off = .status ↔ off = 0x00C :=
  ⟨place_eq_status, fun h => h ▸ place_status limbs⟩

theorem place_cmd_iff {limbs : Nat} {off : Offset} : place limbs off = .cmd ↔ off = 0x010 :=
  ⟨place_eq_cmd, fun h => h ▸ place_cmd limbs⟩

theorem place_dropsWhileBusy_iff {limbs : Nat} {off : Offset} (ha : off.toNat % 4 = 0) :
    (place limbs off).dropsWhileBusy = true ↔ off = 0x010 ∨
      ∃ (k : RegIx) (i : Nat), i < limbs ∧ i < 256 ∧ off.toNat = 0x1000 + 0x400 * k.val + 4 * i := by
  constructor
  · intro h
    cases hp : place limbs off with
    | cmd => exact .inl (place_eq_cmd hp)
    | limb k i => exact .inr ⟨k, i, place_eq_limb hp ha⟩
    | id | param | ctrl | status | unusedLimb | reserved => rw [hp] at h; cases h
  · rintro (rfl | ⟨k, i, hi, hw, ho⟩)
    · rfl
    · rw [place_window hw ho, if_pos hi]
      rfl

/-! ## The control fields after a step (O43, O44, O45) -/

/-- The host writes at most one word in a step. -/
theorem hostWrites_iff {s : State} {off : Offset} {v : Word} (hw : s.HostWrites off v) (off' : Offset) (v' : Word) :
    s.HostWrites off' v' ↔ off = off' ∧ v' = v := by
  obtain ⟨hm, hr, ho⟩ := hw
  simp [State.HostWrites, hm, hr, ho, eq_comm]

/-- The host's write of `v` in this step is at place `p`: which of the writes that the rules name it is. -/
structure WritesAt (s : State) (p : Place) (v : Word) : Prop where
  mover : s.mover = .host
  ctrl : ∀ v', s.HostWrites 0x008 v' ↔ p = .ctrl ∧ v' = v
  status : ∀ v', s.HostWrites 0x00C v' ↔ p = .status ∧ v' = v
  cmd : ∀ v', s.HostWrites 0x010 v' ↔ p = .cmd ∧ v' = v
  cmdOrLimb : (∃ off v, s.HostWrites off v ∧ (off = 0x010 ∨
      ∃ (k : RegIx) (i : Nat), i < s.limbs ∧ i < 256 ∧ off.toNat = 0x1000 + 0x400 * k.val + 4 * i)) ↔
    p.dropsWhileBusy = true

theorem writesAt_place {s : State} {off : Offset} {v : Word} (hw : s.HostWrites off v) (ha : off.toNat % 4 = 0) :
    WritesAt s (place s.limbs off) v where
  mover := hw.1
  ctrl v' := by rw [hostWrites_iff hw, place_ctrl_iff]
  status v' := by rw [hostWrites_iff hw, place_status_iff]
  cmd v' := by rw [hostWrites_iff hw, place_cmd_iff]
  cmdOrLimb := by
    rw [place_dropsWhileBusy_iff ha]
    constructor
    · rintro ⟨off', v', hw', h⟩
      obtain ⟨rfl, -⟩ := (hostWrites_iff hw off' v').1 hw'
      exact h
    · exact fun h => ⟨off, v, hw, h⟩

/-- `t` has the control fields of `s`. -/
structure SameControl (s t : State) : Prop where
  ie : t.ie = s.ie
  busy : t.busy = s.busy
  done : t.done = s.done
  drop : t.drop = s.drop
  errcode : t.errcode = s.errcode
  cmd : t.cmd = s.cmd

/-- What a step does to the control fields, by the event that does it; the events exclude each other. -/
inductive ControlStep (s t : State) : Prop where
  | quiet (hw : ∀ off v, ¬ s.HostWrites off v) (he : s.mover = .engine → s.busy = false) (hr : ¬ s.HardwareResets)
      (hc : SameControl s t)
  | wrote (p : Place) (v : Word) (hw : WritesAt s p v) (hc : ControlAfterWrite p v s t)
  | completed (hm : s.mover = .engine) (hb : s.busy = true) (c : CompletionCode) (hc : SameControl (finish c s) t)
  | reset (hr : s.HardwareResets) (hc : SameControl (clearControl s) t)

theorem completed_control {i : Instr} {s t : State} (h : Completed i s t) : ∃ c, SameControl (finish c s) t := by
  cases h with
  | nothing _ ht => exact ⟨.ok, by constructor <;> rw [ht]⟩
  | result rd v _ _ ht => exact ⟨.ok, by constructor <;> rw [ht] <;> rfl⟩
  | error e ht => exact ⟨.error e, by constructor <;> rw [ht]⟩

theorem heldWrite_control (off : Offset) (s : State) : SameControl s (heldWrite off s) := by
  unfold heldWrite
  cases place s.limbs off <;> exact ⟨rfl, rfl, rfl, rfl, rfl, rfl⟩

theorem step_control {s t : State} (h : step s = .next t) : ControlStep s t := by
  have same : SameControl s s.advance := ⟨rfl, rfl, rfl, rfl, rfl, rfl⟩
  cases step_next h with
  | hostIdle hm ho ht => exact .quiet (by simp [ho]) (by simp [hm]) (by simp [hm]) (ht ▸ same)
  | hostRead off rest hm ho _ ht =>
    subst ht; exact .quiet (by simp [ho]) (by simp [hm]) (by simp [hm]) ⟨rfl, rfl, rfl, rfl, rfl, rfl⟩
  | hostWrite off v rest hm ho ha hr ht =>
    obtain ⟨hie, hbusy, hdone, hdrop, herr, hcmd⟩ := ht ▸ busWrite_control off v { s.advance with hostOps := rest }
    exact .wrote _ v (writesAt_place (hostWrites_of hm hr ho) ha) ⟨hie, hbusy, hdone, hdrop, herr, hcmd⟩
  | heldWrite off v rest hm ho ha hr ht =>
    obtain ⟨hie, hbusy, hdone, hdrop, herr, hcmd⟩ := ht ▸ heldWrite_control off { s.advance with hostOps := rest }
    exact .quiet (by simp [hr]) (by simp [hm]) (by simp [hm]) ⟨hie, hbusy, hdone, hdrop, herr, hcmd⟩
  | hostPoll rest hm ho ht =>
    subst ht; exact .quiet (by simp [ho]) (by simp [hm]) (by simp [hm]) ⟨rfl, rfl, rfl, rfl, rfl, rfl⟩
  | enginePasses hm hb ht => exact .quiet (by simp [hm]) (fun _ => hb) (by simp [hm]) (ht ▸ same)
  | undecodable f e hm hb _ _ ht => subst ht; exact .completed hm hb _ ⟨rfl, rfl, rfl, rfl, rfl, rfl⟩
  | executed f i hm hb _ _ _ hc =>
    obtain ⟨c, hie, hbusy, hdone, hdrop, herr, hcmd⟩ := completed_control hc
    exact .completed hm hb c ⟨hie, hbusy, hdone, hdrop, herr, hcmd⟩
  | worked hm ht =>
    subst ht; exact .quiet (by simp [hm]) (by simp [hm]) (by simp [hm]) ⟨rfl, rfl, rfl, rfl, rfl, rfl⟩
  | asserted hm ht => subst ht; exact .reset (.inl hm) ⟨rfl, rfl, rfl, rfl, rfl, rfl⟩
  | released hm hr ht => subst ht; exact .reset (.inr ⟨hm, hr⟩) ⟨rfl, rfl, rfl, rfl, rfl, rfl⟩
  | notHeld hm hr ht => exact .quiet (by simp [hm]) (by simp [hm]) (by simp [hm, hr]) (ht ▸ same)

theorem not_hostWrites_of_hardwareResets {s : State} (h : s.HardwareResets) (off : Offset) (v : Word) :
    ¬ s.HostWrites off v := by
  obtain hm | ⟨hm, -⟩ := h <;> simp [hm]

theorem mover_ne_engine_of_hardwareResets {s : State} (h : s.HardwareResets) : s.mover ≠ .engine := by
  obtain hm | ⟨hm, -⟩ := h <;> simp [hm]

/-- Settles O43: in each event of `ControlStep`, both sides are what the event says. -/
theorem busyChangesExactlyByAcceptanceCompletionAndReset :
    Obligations.BusyChangesExactlyByAcceptanceCompletionAndReset := by
  intro s t h
  cases step_control h with
  | quiet hw he hr hc =>
    simp only [hc.busy, hw, hr]
    simp +contextual [mt he]
  | wrote p v hw hc =>
    simp only [hw.ctrl, hw.cmd, hc.busy, State.HardwareResets, hw.mover]
    cases p <;> simp +contextual
  | completed hm hb c hc => simp [hc.busy, hm, hb]
  | reset hr hc =>
    simp only [hc.busy, hr, not_hostWrites_of_hardwareResets hr]
    simp

/-- Settles O45: only acceptance and the resets write CMD, in the events of `ControlStep`. -/
theorem cmdHoldsTheLastAcceptedWord : Obligations.CmdHoldsTheLastAcceptedWord := by
  intro s t h
  refine ⟨rfl, ?_⟩
  cases step_control h with
  | quiet hw he hr hc =>
    simp only [hc.cmd, hw, hr]
    simp
  | wrote p v hw hc =>
    simp only [hw.ctrl, hw.cmd, hc.cmd, State.HardwareResets, hw.mover]
    cases p <;> simp +contextual
  | completed hm hb c hc => simp [hc.cmd, hm]
  | reset hr hc =>
    simp only [hc.cmd, hr, not_hostWrites_of_hardwareResets hr]
    simp

/-- Settles O44: `ControlStep` gives each field after each event, and which of the named writes the event is. -/
theorem statusFieldsAndEnableChangeExactlyAsStated : Obligations.StatusFieldsAndEnableChangeExactlyAsStated := by
  intro s t h
  cases step_control h with
  | quiet hw he hr hc =>
    simp only [hc.ie, hc.drop, hc.done, hc.errcode, hw, hr]
    simp +contextual [he]
  | wrote p v hw hc =>
    simp only [hw.ctrl, hw.cmd, hw.status, hw.cmdOrLimb, hc.ie, hc.drop, hc.done, hc.errcode, State.HardwareResets,
      hw.mover]
    cases p <;> simp +contextual [Place.dropsWhileBusy]
  | completed hm hb c hc =>
    simp only [hc.ie, hc.drop, hc.done, hc.errcode, State.HardwareResets, State.HostWrites, hm]
    simp [hb]
  | reset hr hc =>
    simp only [hc.ie, hc.drop, hc.done, hc.errcode, hr, not_hostWrites_of_hardwareResets hr]
    simp [mover_ne_engine_of_hardwareResets hr]

/-! ## Width and registers (O47, O48) -/

theorem busWrite_limbs {off : Offset} (ha : off.toNat % 4 = 0) (v : Word) (s : State) :
    (busWrite off v s).limbs = s.limbs := by
  cases busWrite_cases off v s ha with
  | ignored ht | softReset _ _ ht | enable _ _ ht | status _ ht | accepted _ _ ht | dropped _ _ ht
  | limb _ _ _ _ _ _ ht => exact (congrArg State.limbs ht :)

theorem heldWrite_limbs {off : Offset} (ha : off.toNat % 4 = 0) (s : State) : (heldWrite off s).limbs = s.limbs := by
  obtain ht | ⟨ht, -⟩ := heldWrite_cases off s ha <;> exact (congrArg State.limbs ht :)

theorem Completed.limbs_eq {i : Instr} {s t : State} (h : Completed i s t) : t.limbs = s.limbs := by
  cases h with
  | nothing _ ht | result _ _ _ _ ht | error _ ht => exact (congrArg State.limbs ht :)

/-- Settles O48: no shared operation writes the width. -/
theorem noStepChangesTheWidth : Obligations.NoStepChangesTheWidth := by
  intro s t h
  cases step_next h with
  | hostWrite off v rest _ _ ha _ ht => rw [ht, busWrite_limbs ha]; rfl
  | heldWrite off v rest _ _ ha _ ht => rw [ht, heldWrite_limbs ha]; rfl
  | executed f i _ _ _ _ _ hc => exact hc.limbs_eq
  | hostIdle _ _ ht | hostRead _ _ _ _ _ ht | hostPoll _ _ _ ht | enginePasses _ _ ht | undecodable _ _ _ _ _ _ ht
  | worked _ ht | asserted _ ht | released _ _ ht | notHeld _ _ ht => exact (congrArg State.limbs ht :)

/-- A register is changed only by a write inside its window, to an idle block. -/
theorem busWrite_reg_ne {off : Offset} {v : Word} {s : State} {k : RegIx} (ha : off.toNat % 4 = 0)
    (hne : (busWrite off v s).reg k ≠ s.reg k) :
    s.busy = false ∧ 0x1000 + 0x400 * k.val ≤ off.toNat ∧ off.toNat < 0x1000 + 0x400 * k.val + 4 * s.limbs := by
  cases busWrite_cases off v s ha with
  | limb j i ho hi _ hb ht =>
    have hk : k = j := by
      by_contra hk
      exact hne (by rw [ht, reg_setReg_of_ne _ _ _ _ hk])
    subst hk
    exact ⟨hb, by omega, by omega⟩
  | ignored ht | softReset _ _ ht | enable _ _ ht | status _ ht | accepted _ _ ht | dropped _ _ ht =>
    exact absurd (congrArg (State.reg · k) ht :) hne

theorem Completed.dest_of_reg_ne {i : Instr} {s t : State} {k : RegIx} (h : Completed i s t)
    (hne : t.reg k ≠ s.reg k) : t.errcode = .ok ∧ i.dest? = some k := by
  cases h with
  | result rd v hi _ ht =>
    have hk : k = rd := by
      by_contra hk
      exact hne (by rw [ht, reg_finish, reg_setReg_of_ne _ _ _ _ hk])
    exact ⟨(congrArg State.errcode ht :), hk ▸ hi⟩
  | nothing _ ht | error _ ht => exact absurd (congrArg (State.reg · k) ht :) hne

/-- Settles O47: of the steps only a write, a completion and a reset touch the registers. -/
theorem bigRegisterChangesOnlyByWriteResultOrReset : Obligations.BigRegisterChangesOnlyByWriteResultOrReset := by
  intro s t k h hne
  cases step_next h with
  | hostWrite off v rest hm ho ha hr ht =>
    obtain ⟨hb, hlo, hhi⟩ := busWrite_reg_ne (s := { s.advance with hostOps := rest }) ha (ht ▸ hne)
    exact .inr (.inr (.inl ⟨hb, off, v, hostWrites_of hm hr ho, hlo, hhi⟩))
  | heldWrite off v rest hm ho ha hr ht =>
    obtain hs | ⟨-, j, i, hi, -, hoff⟩ := heldWrite_cases off { s.advance with hostOps := rest } ha
    · exact absurd (by rw [ht, hs]; rfl) hne
    · exact .inr (.inr (.inr ⟨hm, hr, off, v, rest, ho, j, i, hi, hoff⟩))
  | executed f i hm hb hf hd _ hc =>
    obtain ⟨he, hdest⟩ := hc.dest_of_reg_ne hne
    exact .inr (.inl ⟨hm, hb, he, f, i, hf, hd, hdest⟩)
  | asserted hm _ => exact .inl (.inl hm)
  | released hm hr _ => exact .inl (.inr ⟨hm, hr⟩)
  | hostIdle _ _ ht | hostRead _ _ _ _ _ ht | hostPoll _ _ _ ht | enginePasses _ _ ht | undecodable _ _ _ _ _ _ ht
  | worked _ ht | notHeld _ _ ht => exact absurd (congrArg (State.reg · k) ht :) hne

/-! ## The engine-internal state (O51, O52) -/

/-- A completion clears the engine-internal state, whatever it was. -/
theorem exec_engine (i : Instr) (s : State) (e : Engine) : exec i { s with engine := e } = exec i s := by
  cases i <;> rfl

theorem engineTurn_engine (s : State) (e : Engine) :
    forgetEngine (engineTurn { s with engine := e }) = forgetEngine (engineTurn s) := by
  unfold engineTurn
  by_cases hb : s.busy = true
  · simp only [if_pos hb, exec_engine]
    rfl
  · simp only [if_neg hb]
    rfl

theorem busWrite_engine (off : Offset) (v : Word) (s : State) (e : Engine) :
    forgetEngine (.next (busWrite off v { s with engine := e })) = forgetEngine (.next (busWrite off v s)) := by
  unfold busWrite
  cases place s.limbs off with
  | id | param | unusedLimb | reserved | status => rfl
  | ctrl => dsimp only [writeCtrl]; split <;> rfl
  | cmd => dsimp only [writeCmd]; split <;> rfl
  | limb k i => dsimp only [writeLimb]; split <;> rfl

theorem heldWrite_engine (off : Offset) (s : State) (e : Engine) :
    forgetEngine (.next (heldWrite off { s with engine := e })) = forgetEngine (.next (heldWrite off s)) := by
  unfold heldWrite
  cases place s.limbs off <;> rfl

theorem hostWrite_engine (off : Offset) (v : Word) (s : State) (e : Engine) :
    forgetEngine (.next (hostWrite off v { s with engine := e })) = forgetEngine (.next (hostWrite off v s)) := by
  unfold hostWrite
  by_cases hr : s.rstLow = true
  · simp only [if_pos hr, heldWrite_engine]
  · simp only [if_neg hr, busWrite_engine]

theorem hostTurn_engine (s : State) (e : Engine) :
    forgetEngine (hostTurn { s with engine := e }) = forgetEngine (hostTurn s) := by
  dsimp only [hostTurn]
  split
  · rfl
  · split <;> rfl
  · next a v rest _ =>
    split
    · exact hostWrite_engine a.offset v { s with hostOps := rest } e
    · rfl
  · rfl

theorem takeTurn_engine (m : Turn) (s : State) (e : Engine) :
    forgetEngine (takeTurn m { s with engine := e }) = forgetEngine (takeTurn m s) := by
  cases m with
  | host => exact hostTurn_engine s e
  | engine => exact engineTurn_engine s e
  | work | resetLow => rfl
  | resetHigh => dsimp only [takeTurn, releaseReset]; split <;> rfl

theorem hostTurn_nil {s : State} (h : s.hostOps = []) : hostTurn s = .next s := by
  simp [hostTurn, h]

/-- Settles O51: no turn reads the engine-internal state but the hidden one, which changes it alone. -/
theorem engineStateAndIdleTurnsAreUnobservable : Obligations.EngineStateAndIdleTurnsAreUnobservable := by
  intro s
  refine ⟨fun e => takeTurn_engine s.mover s.advance e, fun hm => ?_, fun hm ho => ?_⟩
  · rw [step, hm]
    rfl
  · rw [step, hm]
    exact hostTurn_nil (s := s.advance) ho

/-- An idle block has no command to track. -/
theorem engineTracks_idle {s : State} (hb : s.busy = false) : s.EngineTracks :=
  fun h => absurd h (by simp [hb])

theorem engineTracks_accept (w : Word) (s : State) : (accept w s).EngineTracks :=
  fun _ => ⟨0, rfl⟩

theorem engineTracks_workStep {s : State} (h : s.EngineTracks) : (workStep s).EngineTracks := by
  intro hb
  obtain ⟨k, hk⟩ := h hb
  exact ⟨k + 1, by rw [workFor_succ]; exact congrArg (Engine.work s.limbs) hk⟩

theorem engineTracks_busWrite {s : State} (h : s.EngineTracks) {off : Offset} (ha : off.toNat % 4 = 0) (v : Word) :
    (busWrite off v s).EngineTracks := by
  cases busWrite_cases off v s ha with
  | ignored ht => rwa [ht]
  | softReset _ _ ht => rw [ht]; exact engineTracks_idle rfl
  | enable _ _ ht | status _ ht | dropped _ _ ht => rw [ht]; exact h
  | accepted _ _ ht => rw [ht]; exact engineTracks_accept v s
  | limb k i _ _ _ hb ht => rw [ht]; exact engineTracks_idle hb

theorem engineTracks_heldWrite {s : State} (hb : s.busy = false) {off : Offset} (ha : off.toNat % 4 = 0) :
    (heldWrite off s).EngineTracks := by
  obtain ht | ⟨ht, -⟩ := heldWrite_cases off s ha <;> rw [ht] <;> exact engineTracks_idle hb

/-- Settles O52: acceptance starts the count of hidden turns, `work` adds one, and every other step keeps it or ends the
flight. -/
theorem everyStepKeepsTheEngineOnItsCommand : Obligations.EveryStepKeepsTheEngineOnItsCommand := by
  intro s t hs h hstep
  have hadv : s.advance.EngineTracks := h
  cases step_next hstep with
  | hostIdle _ _ ht | hostRead _ _ _ _ _ ht | hostPoll _ _ _ ht | enginePasses _ _ ht | notHeld _ _ ht =>
    rw [ht]
    exact h
  | hostWrite off v rest _ _ ha _ ht =>
    rw [ht]
    exact engineTracks_busWrite (s := { s.advance with hostOps := rest }) h ha v
  | heldWrite off v rest _ _ ha hr ht =>
    obtain ⟨-, hidle, -⟩ := hs.resetHolds hr
    rw [ht]
    exact engineTracks_heldWrite (s := { s.advance with hostOps := rest }) hidle ha
  | undecodable _ _ _ _ _ _ ht | asserted _ ht | released _ _ ht => rw [ht]; exact engineTracks_idle rfl
  | executed _ _ _ _ _ _ _ hc =>
    obtain ⟨c, hc⟩ := completed_control hc
    exact engineTracks_idle hc.busy
  | worked _ ht => rw [ht]; exact engineTracks_workStep hadv

end Sys2Proof.Machine

/-! SUPPORT. Proofs of the obligations about the register bus: the address map, reads, writes of limbs, key magnitudes and
what the host can do to a command in flight. -/

namespace Sys2Proof.Machine

/-! ## Reads at each place (20_memory.md R52, R53) -/

theorem busRead_id (s : State) : busRead 0x000 s = idWord := rfl
theorem busRead_param (s : State) : busRead 0x004 s = paramWord s := rfl
theorem busRead_ctrl (s : State) : busRead 0x008 s = ctrlWord s := rfl
theorem busRead_status (s : State) : busRead 0x00C s = statusWord s := rfl
theorem busRead_cmd (s : State) : busRead 0x010 s = s.cmd := rfl

/-- No read looks at the host's plans, its record of reads or the schedule. -/
theorem busRead_agents (off : Offset) (s : State) (ops : List BusOp) (reads : List Word) (turns : List Turn) :
    busRead off { s with hostOps := ops, hostReads := reads, schedule := turns } = busRead off s := rfl

theorem place_limbOffset {limbs i : Nat} (k : RegIx) (hi : i < limbs) (hw : i < 256) :
    place limbs (limbOffset k i) = .limb k i := by
  rw [place_window hw (limbOffset_toNat k hw), if_pos hi]

theorem busRead_limbOffset {s : State} {i : Nat} (k : RegIx) (hs : s.LegalWidth) (hi : i < s.limbs) :
    busRead (limbOffset k i) s = limbWord (s.reg k) i := by
  rw [busRead, place_limbOffset k hi (hi.trans_le hs.2)]

theorem limbWord_toNat (v i : Nat) : (limbWord v i).toNat = v / 2 ^ (32 * i) % 2 ^ 32 := by
  rw [limbWord, digitOf, BitVec.toNat_ofNat, Nat.mod_mod]

/-- The limb is the shifted value cut to a word. -/
theorem limbWord_eq_ofNat (v i : Nat) : limbWord v i = BitVec.ofNat 32 (v / 2 ^ (32 * i)) := by
  apply BitVec.eq_of_toNat_eq
  rw [limbWord_toNat, BitVec.toNat_ofNat]

/-- The two fields of PARAM, NREGS = 8 above LIMBS (10_state.md R23). -/
theorem paramWord_eq_ofNat {s : State} (hs : s.LegalWidth) :
    paramWord s = BitVec.ofNat 32 (s.limbs + 8 * 2 ^ 16) := by
  obtain ⟨-, hmax⟩ := hs
  have hfields : (paramWord s).toNat = 8 * 2 ^ 16 + s.limbs % 2 ^ 16 := by
    change BitVec.toNat (w := 8 + 8 + 16) (0#8 ++ BitVec.ofNat 8 Config.nregs ++ BitVec.ofNat 16 s.limbs) = _
    have hlow : s.limbs % 2 ^ 16 < 2 ^ 16 := Nat.mod_lt _ (Nat.two_pow_pos _)
    rw [BitVec.toNat_append, BitVec.toNat_ofNat s.limbs, ← Nat.shiftLeft_add_eq_or_of_lt hlow, Nat.shiftLeft_eq]
    rfl
  apply BitVec.eq_of_toNat_eq
  rw [hfields, BitVec.toNat_ofNat]
  omega

/-- CTRL shows IE alone (10_state.md R24, R25). -/
theorem ctrlWord_eq (s : State) : ctrlWord s = if s.ie then 1 else 0 := by
  cases h : s.ie <;> simp [ctrlWord, h]

/-- Settles O14: the word at each place of the map, the limbs by `busRead_limbOffset`. -/
theorem readsFollowTheAddressMap : Obligations.ReadsFollowTheAddressMap := by
  intro s hs
  refine ⟨?_, ?_, ?_, busRead_status s, busRead_cmd s, fun k i hi => ?_⟩
  · rw [busRead_id]
    rfl
  · rw [busRead_param, paramWord_eq_ofNat hs]
  · rw [busRead_ctrl, ctrlWord_eq]
  · rw [← limbWord_eq_ofNat]
    exact busRead_limbOffset k hs hi

/-! ## Offsets where nothing lies (20_memory.md R56, R57) -/

/-- A place that stores nothing. -/
def Place.Unused (p : Place) : Prop := p = .reserved ∨ p = .unusedLimb

theorem place_unused {limbs : Nat} {off : Offset}
    (h : (0x0014 ≤ off.toNat ∧ off.toNat ≤ 0x0FFF) ∨ 0x3000 ≤ off.toNat ∨
      ∃ (k : RegIx) (i : Nat), limbs ≤ i ∧ i < 256 ∧ off.toNat = 0x1000 + 0x400 * k.val + 4 * i) :
    (place limbs off).Unused := by
  obtain ⟨hlo, hhi⟩ | hhi | ⟨k, i, hi, hw, ho⟩ := h
  · exact .inl (place_reserved (.inl ⟨by omega, by omega⟩))
  · exact .inl (place_reserved (.inr hhi))
  · exact .inr (by rw [place_window hw ho, if_neg (by omega)])

theorem busRead_unused {s : State} {off : Offset} (h : (place s.limbs off).Unused) : busRead off s = 0 := by
  obtain h | h := h <;> rw [busRead, h]

theorem busWrite_unused {s : State} {off : Offset} (h : (place s.limbs off).Unused) (v : Word) :
    busWrite off v s = s := by
  obtain h | h := h <;> rw [busWrite, h]

theorem heldWrite_unused {s : State} {off : Offset} (h : (place s.limbs off).Unused) : heldWrite off s = s := by
  obtain h | h := h <;> rw [heldWrite, h]

/-- At either level of `rst_n`. -/
theorem hostWrite_unused {s : State} {off : Offset} (h : (place s.limbs off).Unused) (v : Word) :
    hostWrite off v s = s := by
  rw [hostWrite, heldWrite_unused h, busWrite_unused h, ite_self]

/-- Settles O16: the place is unused, so a read answers 0 and a write is the identity, at either level of `rst_n`. -/
theorem unusedOffsetsReadZeroAndIgnoreWrites : Obligations.UnusedOffsetsReadZeroAndIgnoreWrites := by
  intro s off v ha hoff
  have hu : (place s.limbs off).Unused := place_unused hoff
  refine ⟨busRead_unused hu, busWrite_unused hu v, fun rest hm ho => ?_⟩
  obtain ho | ho := ho
  · exact ⟨_, step_host_read hm ho ha, rfl⟩
  · refine ⟨_, step_host_write hm ho ha, ?_⟩
    rw [hostWrite_unused (s := { s.advance with hostOps := rest }) hu]
    rfl

/-! ## Writes of ID, PARAM and the limbs (20_memory.md R53, R59, R60) -/

theorem busWrite_id (v : Word) (s : State) : busWrite 0x000 v s = s := rfl
theorem busWrite_param (v : Word) (s : State) : busWrite 0x004 v s = s := rfl

/-- Settles O18: no write reaches a field at either offset. -/
theorem readOnlyRegistersIgnoreWrites : Obligations.ReadOnlyRegistersIgnoreWrites :=
  fun s v => ⟨busWrite_id v s, busWrite_param v s⟩

theorem busWrite_limbOffset {s : State} {i : Nat} (k : RegIx) (v : Word) (hs : s.LegalWidth) (hi : i < s.limbs) :
    busWrite (limbOffset k i) v s = writeLimb k i v s := by
  rw [busWrite, place_limbOffset k hi (hi.trans_le hs.2)]

theorem writeLimb_busy {s : State} (h : s.busy = true) (k : RegIx) (i : Nat) (v : Word) :
    writeLimb k i v s = dropWrite s := by
  simp [writeLimb, h]

theorem writeLimb_idle {s : State} (h : s.busy = false) (k : RegIx) (i : Nat) (v : Word) :
    writeLimb k i v s = s.setReg k (replaceLimb (s.reg k) i v) := by
  simp [writeLimb, h]

/-- Settles O17: the two branches of `writeLimb`, the bits by `replaceLimb_testBit`. -/
theorem limbWriteReplacesItsBitsOrIsDropped : Obligations.LimbWriteReplacesItsBitsOrIsDropped := by
  intro s k i v hs hi
  have hwrite : busWrite (BitVec.ofNat 14 (0x1000 + 0x400 * k.val + 4 * i)) v s = writeLimb k i v s :=
    busWrite_limbOffset k v hs hi
  rw [hwrite]
  refine ⟨fun hb => ?_, fun hb => ⟨replaceLimb (s.reg k) i v, ?_, fun b => replaceLimb_testBit _ i b v⟩⟩
  · rw [writeLimb_busy hb, dropWrite]
  · rw [writeLimb_idle hb, State.setReg]

/-! ## The host's accesses (20_memory.md R51, R58) -/

theorem step_of_host {s : State} (hm : s.mover = .host) : step s = hostTurn s.advance := by
  rw [step, hm, takeTurn]

theorem step_host_read_refused {s : State} {a : Access} {rest : List BusOp} (hm : s.mover = .host)
    (ho : s.hostOps = .read a :: rest) (ha : ¬ a.wf) : step s = .refused (.accessNotDefined a) := by
  simp only [step_of_host hm, hostTurn, advance_hostOps, ho, if_neg ha]

theorem step_host_write_refused {s : State} {a : Access} {v : Word} {rest : List BusOp} (hm : s.mover = .host)
    (ho : s.hostOps = .write a v :: rest) (ha : ¬ a.wf) : step s = .refused (.accessNotDefined a) := by
  simp only [step_of_host hm, hostTurn, advance_hostOps, ho, if_neg ha]

/-- Settles O11: the two branches of the host's turn, for a read and for a write. -/
theorem onlyAlignedWordAccessesArePerformed : Obligations.OnlyAlignedWordAccessesArePerformed := by
  rintro s ⟨off, bytes⟩ v rest hm
  refine ⟨fun ho => ⟨step_host_read_refused hm ho, ?_⟩, fun ho => ⟨step_host_write_refused hm ho, ?_⟩⟩
  · rintro ⟨rfl, ha⟩
    exact ⟨_, step_host_read hm ho ha⟩
  · rintro ⟨rfl, ha⟩
    exact ⟨_, step_host_write hm ho ha, fun hr => hostWrite_high off v hr⟩

/-- Settles O12: a read changes only what `busRead_agents` says no read looks at. -/
theorem readsHaveNoSideEffects : Obligations.ReadsHaveNoSideEffects := by
  intro s off rest hm ha ho
  exact ⟨_, step_host_read hm ho ha, rfl, fun off' => busRead_agents off' s _ _ _⟩

/-! ## Key-layout magnitudes (20_memory.md R69) -/

theorem magnitudeValue_concat (bytes : List Byte) (b : Byte) :
    magnitudeValue (bytes ++ [b]) = magnitudeValue bytes * 256 + b.toNat := by
  rw [magnitudeValue, List.foldl_concat]
  rfl

/-- A byte more at the end raises the weight of every byte before it. -/
theorem magnitudeValue_cons (b : Byte) (bytes : List Byte) :
    magnitudeValue (b :: bytes) = b.toNat * 256 ^ bytes.length + magnitudeValue bytes := by
  induction bytes using List.reverseRecOn with
  | nil => simp [magnitudeValue]
  | append_singleton bytes c ih =>
    rw [← List.cons_append, magnitudeValue_concat, magnitudeValue_concat, ih, List.length_append, List.length_singleton,
      pow_succ]
    ring

theorem limbWord_succ (v i : Nat) : limbWord v (i + 1) = limbWord (v / 2 ^ 32) i := by
  rw [limbWord, limbWord, digitOf, digitOf, Nat.div_div_eq_div_mul, ← pow_add, show 32 * (i + 1) = 32 + 32 * i by ring]

/-- The first `n` limbs of a value hold its lowest `32 n` bits. -/
theorem valueOfLimbs_limbWords (n v : Nat) :
    valueOfLimbs ((List.range n).map (limbWord v)) = v % 2 ^ (32 * n) := by
  induction n generalizing v with
  | zero => simp [valueOfLimbs, Nat.mod_one]
  | succ n ih =>
    have htail : limbWord v ∘ Nat.succ = limbWord (v / 2 ^ 32) := funext (limbWord_succ v)
    rw [List.range_succ_eq_map, List.map_cons, List.map_map, htail, valueOfLimbs, ih, limbWord_toNat, Nat.mul_zero,
      pow_zero, Nat.div_one, show 32 * (n + 1) = 32 + 32 * n by ring, pow_add, Nat.mod_mul]

/-- Settles O25: the weight of the first byte, and the limbs of a value that fits add up to it. -/
theorem keyMagnitudeBecomesItsLimbs : Obligations.KeyMagnitudeBecomesItsLimbs := by
  intro limbs b bytes
  refine ⟨rfl, magnitudeValue_cons b bytes, fun hfit => ⟨_, if_pos hfit, by simp, ?_⟩, fun hbig => if_neg hbig.not_gt⟩
  rw [valueOfLimbs_limbWords, Nat.mod_eq_of_lt hfit]

/-! ## The command in flight (20_memory.md R61, R63, R67) -/

/-- `t` has the command in flight and the registers of `s`. -/
structure SameFlight (s t : State) : Prop where
  inflight : t.inflight = s.inflight
  cmd : t.cmd = s.cmd
  regs : t.regs = s.regs
  limbs : t.limbs = s.limbs

theorem busWrite_sameFlight {s : State} {off : Offset} {v : Word} (ha : off.toNat % 4 = 0) (hb : s.busy = true)
    (hstill : (busWrite off v s).busy = true) : SameFlight s (busWrite off v s) := by
  cases busWrite_cases off v s ha with
  | ignored ht | enable _ _ ht | status _ ht | dropped _ _ ht => rw [ht]; exact ⟨rfl, rfl, rfl, rfl⟩
  | softReset _ _ ht => rw [ht] at hstill; cases hstill
  | accepted _ hidle _ | limb _ _ _ _ _ hidle _ => exact absurd hb (by simp [hidle])

/-- Of the steps from a busy state only a completion and a reset touch the flight, and both end it. -/
theorem step_sameFlight {s t : State} (hs : s.ResetHolds) (hb : s.busy = true) (h : step s = .next t)
    (hstill : t.busy = true) : SameFlight s t := by
  have hhigh : s.rstLow = false := rstLow_of_busy hs hb
  cases step_next h with
  | hostIdle _ _ ht | hostRead _ _ _ _ _ ht | hostPoll _ _ _ ht | enginePasses _ _ ht | worked _ ht | notHeld _ _ ht =>
    rw [ht]
    exact ⟨rfl, rfl, rfl, rfl⟩
  | hostWrite off v rest _ _ ha _ ht =>
    obtain ⟨hinflight, hcmd, hregs, hlimbs⟩ :=
      busWrite_sameFlight (s := { s.advance with hostOps := rest }) ha hb (ht ▸ hstill)
    rw [ht]
    exact ⟨hinflight, hcmd, hregs, hlimbs⟩
  | heldWrite _ _ _ _ _ _ hlow _ => exact absurd hlow (by simp [hhigh])
  | undecodable _ _ _ _ _ _ ht | asserted _ ht | released _ _ ht => rw [ht] at hstill; cases hstill
  | executed _ _ _ _ _ _ _ hc =>
    obtain ⟨c, hc⟩ := completed_control hc
    exact absurd (hc.busy.symm.trans hstill) (by simp)

/-- Settles O49: the host's turn in `step_sameFlight`, which speaks of every mover. -/
theorem hostCannotDisturbTheCommandInFlight : Obligations.HostCannotDisturbTheCommandInFlight := by
  intro s t hs _ hb h hstill
  obtain ⟨hinflight, hcmd, hregs, -⟩ := step_sameFlight hs hb h hstill
  exact ⟨hinflight, hcmd, hregs⟩

/-- Settles O22: the registers are as before, and a limb's offset reads its register. -/
theorem registersReadUnchangedUntilCompletion : Obligations.RegistersReadUnchangedUntilCompletion := by
  intro s t k i hs hb hi h hstill
  obtain ⟨-, -, hregs, hlimbs⟩ := step_sameFlight hs.resetHolds hb h hstill
  have ht : t.LegalWidth := by rw [State.LegalWidth, hlimbs]; exact hs.legalWidth
  have hread := busRead_limbOffset k hs.legalWidth hi
  have hread' := busRead_limbOffset k ht (hlimbs ▸ hi)
  rw [State.reg, hregs] at hread'
  exact hread'.trans hread.symm

/-- Outcomes with the same registers and code, or the same fault. -/
inductive SameResult : Result → Result → Prop where
  | next {u u' : State} (hregs : u'.regs = u.regs) (hcode : u'.errcode = u.errcode) : SameResult (.next u) (.next u')
  | fault (r : Fault) : SameResult (.fault r) (.fault r)

theorem finish_sameResult {s t : State} (c : CompletionCode) (h : t.regs = s.regs) :
    SameResult (.next (finish c s)) (.next (finish c t)) := .next h rfl

theorem complete_sameResult {s t : State} (h : SameFlight s t) (rd : RegIx) (r : Except ErrorCode Nat) :
    SameResult (.next (complete rd r s)) (.next (complete rd r t)) := by
  cases r with
  | ok v => exact finish_sameResult .ok (by rw [setReg_regs, setReg_regs, h.regs])
  | error e => exact finish_sameResult (.error e) h.regs

theorem latched_sameResult {s t : State} (h : SameFlight s t) (field : Inflight → Option Nat) {k k' : Nat → Result}
    (hk : ∀ v, SameResult (k v) (k' v)) : SameResult (latched field s k) (latched field t k') := by
  unfold latched
  rw [h.inflight]
  cases s.inflight with
  | none => exact .fault _
  | some f =>
    dsimp only
    cases field f with
    | none => exact .fault _
    | some v => exact hk v

/-- A meaning reads the record in flight, the width and the registers, and nothing else. -/
theorem exec_sameResult {s t : State} (h : SameFlight s t) (i : Instr) : SameResult (exec i s) (exec i t) := by
  cases i with
  | nop => exact finish_sameResult .ok h.regs
  | mov rd ra => exact latched_sameResult h _ fun a => complete_sameResult h rd _
  | modinv rd ra rn | modred rd ra rn =>
    exact latched_sameResult h _ fun a => latched_sameResult h _ fun n => complete_sameResult h rd _
  | modmul rd ra rb rn | modexp rd ra rb rn =>
    exact latched_sameResult h _ fun a => latched_sameResult h _ fun b => latched_sameResult h _ fun n =>
      complete_sameResult h rd _
  | tomont rd ra rn | frommont rd ra rn =>
    refine latched_sameResult h _ fun a => latched_sameResult h _ fun n => ?_
    rw [h.limbs]
    exact complete_sameResult h rd _
  | montmul rd ra rb rn =>
    refine latched_sameResult h _ fun a => latched_sameResult h _ fun b => latched_sameResult h _ fun n => ?_
    rw [h.limbs]
    exact complete_sameResult h rd _

/-- Settles O50: the host's operation leaves the flight alone, and the meaning depends on nothing else. -/
theorem placementOfCompletionDoesNotChangeItsResult : Obligations.PlacementOfCompletionDoesNotChangeItsResult := by
  intro s t f i hs _ hb h hstill hf hd
  have hsame : SameFlight s t := step_sameFlight hs.resetHolds hb h hstill
  obtain ⟨-, rfl⟩ := inflight_of_inv hs hf
  rw [latch_word] at hd
  obtain ⟨u, hu⟩ := exec_of_latch hf hd
  have hres : SameResult (exec i s) (exec i t) := exec_sameResult hsame i
  rw [hu] at hres
  generalize hu' : exec i t = r at hres
  cases hres with
  | next hregs hcode => exact ⟨u, _, hu, rfl, hregs, hcode⟩

end Sys2Proof.Machine

/-! SUPPORT. Proofs of the obligations about the command word and its texts: the decoder, the encoder, the opcode table,
the words that do not decode, the assembler and the lines of a host script. -/

namespace Sys2Proof.Machine

/-! ## The words of an opcode (30_encoding.md R73 to R76) -/

/-- The decoder's checks on a word of opcode `op`. -/
structure IsWordOf (op : Opcode) (w : Word) : Prop where
  code : op.code = fieldOp w
  reserved : reservedZero w = true
  unused : unusedZero op w = true

/-- The command an opcode makes of the fields of a word. -/
def commandOf (op : Opcode) (w : Word) : Instr :=
  op.build (toRegIx (fieldRd w)) (toRegIx (fieldRa w)) (toRegIx (fieldRb w)) (toRegIx (fieldRn w))

@[simp] theorem commandOf_opcode (op : Opcode) (w : Word) : (commandOf op w).opcode = op := build_opcode op _ _ _ _

theorem decode_ok_iff {w : Word} {i : Instr} : decode w = .ok i ↔ ∃ op, IsWordOf op w ∧ commandOf op w = i := by
  constructor
  · intro h
    obtain ⟨-, hd⟩ | ⟨-, -, -, hd⟩ | ⟨op, hop, hz, hu, hd⟩ := decode_cases w <;> cases hd.symm.trans h
    exact ⟨op, ⟨(opcodeOf_eq_some _ _).1 hop, hz, hu⟩, rfl⟩
  · rintro ⟨op, ⟨hop, hz, hu⟩, rfl⟩
    simp [decode, (opcodeOf_eq_some _ _).2 hop, hz, hu, commandOf]

theorem decode_opcode_iff {w : Word} : decode w = .error .opcode ↔ ∀ op : Opcode, op.code ≠ fieldOp w := by
  rw [← opcodeOf_eq_none]
  obtain ⟨hop, hd⟩ | ⟨op, hop, -, hd⟩ | ⟨op, hop, -, -, hd⟩ := decode_cases w <;> simp [hd, hop]

theorem decode_field_iff {w : Word} :
    decode w = .error .field ↔ ∃ op : Opcode, op.code = fieldOp w ∧ ¬ IsWordOf op w := by
  constructor
  · intro h
    obtain ⟨-, hd⟩ | ⟨op, hop, hzu, -⟩ | ⟨_, _, _, _, hd⟩ := decode_cases w
    · cases hd.symm.trans h
    · exact ⟨op, (opcodeOf_eq_some _ _).1 hop, fun hw => by simp [hw.reserved, hw.unused] at hzu⟩
    · cases hd.symm.trans h
  · rintro ⟨op, hop, hw⟩
    cases hd : decode w with
    | ok i =>
      obtain ⟨op', hw', -⟩ := decode_ok_iff.1 hd
      have hsame : some op = some op' := by rw [← opcodeOf_code op, ← opcodeOf_code op', hop, hw'.code]
      cases hsame
      exact absurd hw' hw
    | error e =>
      cases e with
      | opcode => exact absurd hop (decode_opcode_iff.1 hd op)
      | field => rfl

/-! ## The two round trips (O1, O2) -/

/-- Settles O1: `decode_encode`, the decoder's checks on a word made of a command's parts. -/
theorem everyCommandWordDecodesToIt : Obligations.EveryCommandWordDecodesToIt := decode_encode

theorem eq_packWord_iff {w : Word} {op : BitVec 8} {rd ra rb rn : BitVec 3} :
    w = packWord op rd ra rb rn ↔
      reservedZero w = true ∧ fieldOp w = op ∧ fieldRd w = rd ∧ fieldRa w = ra ∧ fieldRb w = rb ∧ fieldRn w = rn := by
  constructor
  · rintro rfl
    simp
  · rintro ⟨hz, rfl, rfl, rfl, rfl, rfl⟩
    exact (packWord_fields w hz).symm

theorem unusedZero_iff {op : Opcode} {w : Word} :
    unusedZero op w = true ↔
      (op.usesRd = false → fieldRd w = 0) ∧ (op.usesRa = false → fieldRa w = 0) ∧
      (op.usesRb = false → fieldRb w = 0) ∧ (op.usesRn = false → fieldRn w = 0) := by
  have use (b c : Bool) : (b || c) = true ↔ (b = false → c = true) := by cases b <;> simp
  simp only [unusedZero, Bool.and_eq_true, use, beq_iff_eq, and_assoc]

/-- The word of a command holds the fields its opcode uses, and 0 in the others (30_encoding.md R74). -/
theorem encode_build (op : Opcode) (rd ra rb rn : RegIx) :
    encode (op.build rd ra rb rn) =
      packWord op.code (if op.usesRd then ofRegIx rd else 0) (if op.usesRa then ofRegIx ra else 0)
        (if op.usesRb then ofRegIx rb else 0) (if op.usesRn then ofRegIx rn else 0) := by
  cases op <;> rfl

theorem encode_commandOf {op : Opcode} {w : Word} (h : IsWordOf op w) : encode (commandOf op w) = w := by
  obtain ⟨hrd, hra, hrb, hrn⟩ := unusedZero_iff.1 h.unused
  have field (used : Bool) (f : BitVec 3) (hf : used = false → f = 0) :
      f = if used then ofRegIx (toRegIx f) else 0 := by
    cases used with
    | true => rfl
    | false => exact hf rfl
  rw [commandOf, encode_build]
  exact (eq_packWord_iff.2
    ⟨h.reserved, h.code.symm, field _ _ hrd, field _ _ hra, field _ _ hrb, field _ _ hrn⟩).symm

/-- Settles O2: the command is made of the fields, and the decoder's checks leave nothing else in the word. -/
theorem everyDecodedWordIsTheEncodingOfIt : Obligations.EveryDecodedWordIsTheEncodingOfIt := by
  intro w i h
  obtain ⟨op, hw, rfl⟩ := decode_ok_iff.1 h
  exact encode_commandOf hw

/-! ## The opcode table (O3, O4) -/

/-- The bits of a field that a table row's mask leaves free: all or none. -/
def freeBits (used : Bool) : BitVec 3 := if used then 7 else 0

/-- A row's mask is clear in the fields its opcode uses and set everywhere else. -/
theorem tableMask_eq (op : Opcode) :
    op.tableMask =
      ~~~packWord 0 (freeBits op.usesRd) (freeBits op.usesRa) (freeBits op.usesRb) (freeBits op.usesRn) := by
  cases op <;> rfl

theorem tableMatch_eq (op : Opcode) : op.tableMatch = packWord op.code 0 0 0 0 := by
  cases op <;> rfl

/-- A mask that keeps OP whole keeps the reserved bits too. -/
theorem reservedZero_and_not_packWord (w : Word) (op : BitVec 8) (rd ra rb rn : BitVec 3) :
    reservedZero (w &&& ~~~packWord op rd ra rb rn) = reservedZero w := by
  have hmask := (reservedZero_iff _).1 (reservedZero_packWord op rd ra rb rn)
  rw [Bool.eq_iff_iff, reservedZero_iff, reservedZero_iff]
  refine forall₂_congr fun j hj => ?_
  rw [BitVec.getLsbD_and, BitVec.getLsbD_not, hmask j hj]
  by_cases h32 : j < 32
  · simp [h32]
  · simp [BitVec.getLsbD_of_ge w j (by omega)]

theorem extractLsb'_and_not {a n : Nat} (h : a + n < 32) (w m : Word) :
    (w &&& ~~~m).extractLsb' a n = w.extractLsb' a n &&& ~~~m.extractLsb' a n := by
  rw [BitVec.extractLsb'_and, BitVec.extractLsb'_not_of_lt h]

theorem fieldOp_and_not (w m : Word) : fieldOp (w &&& ~~~m) = fieldOp w &&& ~~~fieldOp m :=
  extractLsb'_and_not (by decide) w m
theorem fieldRd_and_not (w m : Word) : fieldRd (w &&& ~~~m) = fieldRd w &&& ~~~fieldRd m :=
  extractLsb'_and_not (by decide) w m
theorem fieldRa_and_not (w m : Word) : fieldRa (w &&& ~~~m) = fieldRa w &&& ~~~fieldRa m :=
  extractLsb'_and_not (by decide) w m
theorem fieldRb_and_not (w m : Word) : fieldRb (w &&& ~~~m) = fieldRb w &&& ~~~fieldRb m :=
  extractLsb'_and_not (by decide) w m
theorem fieldRn_and_not (w m : Word) : fieldRn (w &&& ~~~m) = fieldRn w &&& ~~~fieldRn m :=
  extractLsb'_and_not (by decide) w m

theorem and_not_freeBits (used : Bool) (f : BitVec 3) : f &&& ~~~freeBits used = 0 ↔ (used = false → f = 0) := by
  revert used f
  decide

/-- A row's mask and match make the decoder's checks. -/
theorem tableRow_iff {op : Opcode} {w : Word} : w &&& op.tableMask = op.tableMatch ↔ IsWordOf op w := by
  rw [tableMask_eq, tableMatch_eq, eq_packWord_iff, reservedZero_and_not_packWord]
  simp only [fieldOp_and_not, fieldRd_and_not, fieldRa_and_not, fieldRb_and_not, fieldRn_and_not, fieldOp_packWord,
    fieldRd_packWord, fieldRa_packWord, fieldRb_packWord, fieldRn_packWord, and_not_freeBits, ← unusedZero_iff]
  have hop : fieldOp w &&& ~~~0 = fieldOp w := BitVec.and_allOnes
  rw [hop]
  exact ⟨fun ⟨hz, hc, hu⟩ => ⟨hc.symm, hz, hu⟩, fun ⟨hc, hz, hu⟩ => ⟨hz, hc.symm, hu⟩⟩

/-- Settles O3: the mask makes the checks of `decode_ok_iff`. -/
theorem tableRowsSelectTheirCommands : Obligations.TableRowsSelectTheirCommands := by
  intro w op
  rw [tableRow_iff]
  constructor
  · exact fun hw => ⟨_, decode_ok_iff.2 ⟨op, hw, rfl⟩, commandOf_opcode op w⟩
  · rintro ⟨i, hd, rfl⟩
    obtain ⟨op, hw, rfl⟩ := decode_ok_iff.1 hd
    rwa [commandOf_opcode]

/-- Settles O4: the decoder's two errors, its checks written as the row's mask and match. -/
theorem decodeErrorsAreExact : Obligations.DecodeErrorsAreExact := by
  intro w
  simp only [ne_eq, tableRow_iff]
  exact ⟨decode_opcode_iff, decode_field_iff⟩

/-- Settles O5: by evaluation of the decoder. -/
theorem sampleWordsDecode : Obligations.SampleWordsDecode := by
  unfold Obligations.SampleWordsDecode
  decide

/-! ## Words that do not decode (O9) -/

/-- Settles O9: the error branch of the engine's turn. -/
theorem undecodableCommandCompletesWithItsError : Obligations.UndecodableCommandCompletesWithItsError := by
  intro s f hm hb hf
  rw [step_of_engine hm]
  exact ⟨engineTurn_of_error (s := s.advance) hb hf, engineTurn_of_error (s := s.advance) hb hf⟩

/-! ## Assembler text (O6, O7; 30_encoding.md R79, R82) -/

theorem map_toUpper_map_toLower (text : List Char) :
    (text.map Char.toLower).map Char.toUpper = text.map Char.toUpper := by
  rw [List.map_map]
  exact List.map_congr_left fun c _ => Char.toUpper_toLower_eq_toUpper c

/-- Settles O7: the assembler looks at the text in upper case alone. -/
theorem assemblerIgnoresCase : Obligations.AssemblerIgnoresCase := by
  intro text
  rw [assemble, map_toUpper_map_toLower, ← assemble]

/-! ### Cutting a text at its separators -/

theorem firstWord_append {as : List Char} (h : ∀ c ∈ as, c ≠ ' ') (bs : List Char) :
    firstWord (as ++ bs) = as ++ firstWord bs := by
  induction as with
  | nil => rfl
  | cons c as ih =>
    obtain ⟨hc, has⟩ := List.forall_mem_cons.1 h
    rw [List.cons_append, firstWord, if_neg hc, ih has, List.cons_append]

theorem afterFirstWord_append {as : List Char} (h : ∀ c ∈ as, c ≠ ' ') (bs : List Char) :
    afterFirstWord (as ++ bs) = afterFirstWord bs := by
  induction as with
  | nil => rfl
  | cons c as ih =>
    obtain ⟨hc, has⟩ := List.forall_mem_cons.1 h
    rw [List.cons_append, afterFirstWord, if_neg hc, ih has]

/-- Characters before the first comma belong to the first piece. -/
theorem splitCommas_append {as bs p : List Char} {ps : List (List Char)} (h : ∀ c ∈ as, c ≠ ',')
    (hb : splitCommas bs = p :: ps) : splitCommas (as ++ bs) = (as ++ p) :: ps := by
  induction as with
  | nil => exact hb
  | cons c as ih =>
    obtain ⟨hc, has⟩ := List.forall_mem_cons.1 h
    rw [List.cons_append, splitCommas, ih has]
    exact if_neg hc

theorem splitCommas_ne_nil (cs : List Char) : splitCommas cs ≠ [] := by
  cases cs with
  | nil => simp [splitCommas]
  | cons c cs =>
    rw [splitCommas]
    split
    · simp
    · split <;> simp

theorem splitCommas_comma (cs : List Char) : splitCommas (',' :: cs) = [] :: splitCommas cs := by
  rw [splitCommas]
  cases h : splitCommas cs with
  | nil => exact absurd h (splitCommas_ne_nil cs)
  | cons p ps => rfl

/-- Text with no space at either end. -/
structure IsTrimmed (cs : List Char) : Prop where
  ne_nil : cs ≠ []
  head : cs.head? ≠ some ' '
  last : cs.getLast? ≠ some ' '

theorem IsTrimmed.append {as bs : List Char} (ha : IsTrimmed as) (sep : List Char) (hb : IsTrimmed bs) :
    IsTrimmed (as ++ sep ++ bs) where
  ne_nil := by simp [ha.ne_nil]
  head := by rw [List.append_assoc, List.head?_append_of_ne_nil _ ha.ne_nil]; exact ha.head
  last := by rw [List.getLast?_append_of_ne_nil _ hb.ne_nil]; exact hb.last

theorem dropSpaces_of_head {cs : List Char} (h : cs.head? ≠ some ' ') : dropSpaces cs = cs := by
  cases cs with
  | nil => rfl
  | cons c cs => exact if_neg fun hc => h (by rw [hc, List.head?_cons])

theorem IsTrimmed.trimSpaces_eq {cs : List Char} (h : IsTrimmed cs) : trimSpaces cs = cs := by
  rw [trimSpaces, dropSpaces_of_head h.head, dropSpaces_of_head (by rw [List.head?_reverse]; exact h.last),
    List.reverse_reverse]

/-! ### The pieces of a printed line -/

/-- Upper-case characters, none of them a separator: a mnemonic or a register name. -/
structure IsName (cs : List Char) : Prop where
  ne_nil : cs ≠ []
  noSpace : ∀ c ∈ cs, c ≠ ' '
  noComma : ∀ c ∈ cs, c ≠ ','
  upper : ∀ c ∈ cs, c.toUpper = c

theorem isName_mnemonicOf (op : Opcode) : IsName (mnemonicOf op) := by
  cases op <;> constructor <;> simp [mnemonicOf]

theorem isName_printReg (k : RegIx) : IsName (printReg k) := by
  have hdigit : ∀ k : RegIx, Char.ofNat (48 + k.val) ≠ ' ' ∧ Char.ofNat (48 + k.val) ≠ ',' ∧
      (Char.ofNat (48 + k.val)).toUpper = Char.ofNat (48 + k.val) := by decide
  constructor <;> simp [printReg, hdigit k]

theorem IsName.isTrimmed {cs : List Char} (h : IsName cs) : IsTrimmed cs where
  ne_nil := h.ne_nil
  head hc := h.noSpace _ (List.mem_of_mem_head? hc) rfl
  last hc := h.noSpace _ (List.mem_of_getLast? hc) rfl

theorem IsName.map_toUpper {cs : List Char} (h : IsName cs) : cs.map Char.toUpper = cs :=
  (List.map_congr_left h.upper).trans (List.map_id' cs)

/-- Two or more operands: the first, a comma and a space, and the others. -/
theorem printOperands_cons {ks : List RegIx} (hks : ks ≠ []) (k : RegIx) :
    printOperands (k :: ks) = printReg k ++ [',', ' '] ++ printOperands ks := by
  cases ks with
  | nil => exact absurd rfl hks
  | cons j js => rfl

theorem isTrimmed_printOperands {ks : List RegIx} (hne : ks ≠ []) : IsTrimmed (printOperands ks) := by
  induction ks using printOperands.induct with
  | case1 => exact absurd rfl hne
  | case2 k => exact (isName_printReg k).isTrimmed
  | case3 k ks hks ih =>
    rw [printOperands_cons hks]
    exact (isName_printReg k).isTrimmed.append _ (ih hks)

theorem map_toUpper_printOperands (ks : List RegIx) : (printOperands ks).map Char.toUpper = printOperands ks := by
  induction ks using printOperands.induct with
  | case1 => rfl
  | case2 k => exact (isName_printReg k).map_toUpper
  | case3 k ks hks ih =>
    rw [printOperands_cons hks, List.map_append, List.map_append, ih, (isName_printReg k).map_toUpper]
    rfl

/-! ### Reading them back -/

theorem parseReg_printReg (k : RegIx) : parseReg (printReg k) = some k := by
  revert k
  decide

/-- A space before an operand is not seen. -/
theorem parseRegs_splitCommas_space (cs : List Char) :
    parseRegs (splitCommas (' ' :: cs)) = parseRegs (splitCommas cs) := by
  cases h : splitCommas cs with
  | nil => exact absurd h (splitCommas_ne_nil cs)
  | cons p ps =>
    have hspace : splitCommas ([' '] ++ cs) = ([' '] ++ p) :: ps := splitCommas_append (by simp) h
    rw [← List.singleton_append, hspace]
    rfl

theorem parseRegs_printOperands {ks : List RegIx} (hne : ks ≠ []) :
    parseRegs (splitCommas (printOperands ks)) = some ks := by
  induction ks using printOperands.induct with
  | case1 => exact absurd rfl hne
  | case2 k =>
    have hsplit : splitCommas (printReg k ++ []) = [printReg k ++ []] :=
      splitCommas_append (isName_printReg k).noComma rfl
    rw [List.append_nil] at hsplit
    rw [printOperands, hsplit, parseRegs, parseReg_printReg]
    rfl
  | case3 k ks hks ih =>
    have hsplit := splitCommas_append (isName_printReg k).noComma (splitCommas_comma (' ' :: printOperands ks))
    rw [List.append_nil] at hsplit
    rw [printOperands_cons hks, List.append_assoc, List.cons_append, List.singleton_append, hsplit, parseRegs,
      parseReg_printReg, parseRegs_splitCommas_space, ih hks]

theorem assemble_name {name : List Char} (h : IsName name) : assemble name = buildInstr name [] := by
  have hfirst : firstWord (name ++ []) = name ++ [] := firstWord_append h.noSpace []
  have hafter : afterFirstWord (name ++ []) = [] := afterFirstWord_append h.noSpace []
  rw [List.append_nil] at hfirst hafter
  simp only [assemble, h.map_toUpper, h.isTrimmed.trimSpaces_eq, hfirst, hafter]
  rfl

theorem assemble_operands {name : List Char} {ks : List RegIx} (h : IsName name) (hks : ks ≠ []) :
    assemble (name ++ [' '] ++ printOperands ks) = buildInstr name ks := by
  have hops : IsTrimmed (printOperands ks) := isTrimmed_printOperands hks
  have hupper : (name ++ [' '] ++ printOperands ks).map Char.toUpper = name ++ [' '] ++ printOperands ks := by
    rw [List.map_append, List.map_append, h.map_toUpper, map_toUpper_printOperands]
    rfl
  have hfirst : firstWord (name ++ [' '] ++ printOperands ks) = name := by
    rw [List.append_assoc, firstWord_append h.noSpace]
    exact List.append_nil name
  have hafter : afterFirstWord (name ++ [' '] ++ printOperands ks) = printOperands ks := by
    rw [List.append_assoc, afterFirstWord_append h.noSpace]
    rfl
  simp only [assemble, hupper, (h.isTrimmed.append _ hops).trimSpaces_eq, hfirst, hafter, hops.trimSpaces_eq,
    if_neg hops.ne_nil, parseRegs_printOperands hks]

theorem buildInstr_parts (i : Instr) : buildInstr (mnemonicOf i.opcode) (operandsOf i) = some i := by
  cases i <;> rfl

theorem assemble_printInstr (i : Instr) : assemble (printInstr i) = some i := by
  have hname : IsName (mnemonicOf i.opcode) := isName_mnemonicOf i.opcode
  rw [← buildInstr_parts i, printInstr]
  by_cases hks : operandsOf i = []
  · rw [hks, if_pos rfl, printOperands, List.append_nil, List.append_nil, assemble_name hname]
  · rw [if_neg hks, assemble_operands hname hks]

/-- Settles O6: the printed command is read back, and its word is the one it was decoded from. -/
theorem assemblerReadsBackDisassembly : Obligations.AssemblerReadsBackDisassembly := by
  intro w i h
  have hprint : disassemble w = printInstr i := by rw [disassemble, h]
  rw [hprint, assemble_printInstr, Option.map_some, everyDecodedWordIsTheEncodingOfIt w i h]

/-! ## Host-script lines (O13, O23, O24; 30_encoding.md R81) -/

theorem step_host_poll {s : State} {rest : List BusOp} (hm : s.mover = .host) (ho : s.hostOps = .poll :: rest) :
    step s = .next (deliver (statusWord s)
      { s.advance with hostOps := if (statusWord s).getLsbD 0 then .poll :: rest else rest }) := by
  simp only [step_of_host hm, hostTurn, advance_hostOps, ho]
  rfl

/-- Settles O13: bit 0 of the word the poll reads is BUSY. -/
theorem waitPollsUntilBusyIsClear : Obligations.WaitPollsUntilBusyIsClear := by
  intro s rest hm ho
  rw [step_host_poll hm ho, statusWord_getLsbD, if_pos rfl]
  rfl

theorem run_succ {M : Host.Core} {s t : M.State} (h : M.step s = .next t) (n : Nat) : M.run (n + 1) s = M.run n t := by
  rw [Host.Core.run, h]

/-- With no turn scheduled an idle block leaves the step to the host. -/
theorem mover_of_idle {s : State} (hs : s.schedule = []) (hb : s.busy = false) : s.mover = .host := by
  simp [State.mover, hs, hb]

theorem advance_of_unscheduled {s : State} (hs : s.schedule = []) : s.advance = s := by
  cases s
  cases hs
  rfl

theorem step_idle_read {s : State} {off : Offset} {rest : List BusOp} (hb : s.busy = false) (hs : s.schedule = [])
    (ho : s.hostOps = memRead off :: rest) (ha : off.toNat % 4 = 0) :
    step s = .next { s with hostOps := rest, hostReads := busRead off s :: s.hostReads } := by
  rw [step_host_read (mover_of_idle hs hb) ho ha, advance_of_unscheduled hs, deliver]

theorem step_idle_write {s : State} {off : Offset} {v : Word} {rest : List BusOp} (hb : s.busy = false)
    (hr : s.rstLow = false) (hs : s.schedule = []) (ho : s.hostOps = memWrite off v :: rest) (ha : off.toNat % 4 = 0) :
    step s = .next (busWrite off v { s with hostOps := rest }) := by
  rw [step_of_hostWrites (hostWrites_of (mover_of_idle hs hb) hr ho) ha, advance_of_unscheduled hs, ho, List.tail_cons]

theorem limbOffset_aligned (k : RegIx) {i : Nat} (hi : i < 256) : (limbOffset k i).toNat % 4 = 0 := by
  rw [limbOffset_toNat k hi]
  omega

/-! ### `stb` -/

/-- The host's reads of an idle block are answered one after the other; the newest word is recorded first. -/
theorem run_reads {s : State} (hb : s.busy = false) (hs : s.schedule = []) {offs : List Offset}
    (ha : ∀ off ∈ offs, off.toNat % 4 = 0) (rest : List BusOp) (reads : List Word) :
    Host.Core.run core offs.length { s with hostOps := offs.map memRead ++ rest, hostReads := reads } =
      .next { s with hostOps := rest, hostReads := (offs.map (busRead · s)).reverse ++ reads } := by
  induction offs generalizing reads with
  | nil => rfl
  | cons off offs ih =>
    obtain ⟨haoff, haoffs⟩ := List.forall_mem_cons.1 ha
    have hstep := step_idle_read
      (s := { s with hostOps := memRead off :: (offs.map memRead ++ rest), hostReads := reads }) hb hs rfl haoff
    have hwords : ((off :: offs).map (busRead · s)).reverse ++ reads =
        (offs.map (busRead · s)).reverse ++ busRead off s :: reads := by simp
    rw [hwords]
    exact (run_succ hstep offs.length).trans (ih haoffs (busRead off s :: reads))

/-- Settles O24: the words read are the register's limbs, which hold all its bits. -/
theorem storeLineReadsTheRegister : Obligations.StoreLineReadsTheRegister := by
  intro s k rest hw hf hb hs ho
  have ha : ∀ off ∈ (List.range s.limbs).map (limbOffset k), off.toNat % 4 = 0 :=
    List.forall_mem_map.2 fun i hi => limbOffset_aligned k ((List.mem_range.1 hi).trans_le hw.2)
  have hread : ((List.range s.limbs).map (limbOffset k)).map (busRead · s) =
      (List.range s.limbs).map (limbWord (s.reg k)) := by
    rw [List.map_map]
    exact List.map_congr_left fun i hi => busRead_limbOffset k hw (List.mem_range.1 hi)
  have hrun := run_reads hb hs ha rest s.hostReads
  rw [List.length_map, List.length_range, hread] at hrun
  have hops : ((List.range s.limbs).map (limbOffset k)).map memRead ++ rest = s.hostOps := by
    rw [ho, List.map_map]
    rfl
  rw [hops] at hrun
  refine ⟨(List.range s.limbs).map (limbWord (s.reg k)), by simp, ?_, hrun⟩
  rw [valueOfLimbs_limbWords]
  exact Nat.mod_eq_of_lt (hf k)

/-! ### `ldb` -/

/-- Register contents `x` after the writes of the limbs `is` of `v`, in that order. -/
def withLimbs (v x : Nat) (is : List Nat) : Nat := is.foldl (fun x i => replaceLimb x i (limbWord v i)) x

theorem limbWord_getLsbD (v i b : Nat) : (limbWord v i).getLsbD b = (decide (b < 32) && v.testBit (32 * i + b)) := by
  rw [limbWord_eq_ofNat, BitVec.getLsbD_ofNat, Nat.testBit_div_two_pow, Nat.add_comm]

theorem withLimbs_range_testBit (v x n b : Nat) :
    (withLimbs v x (List.range n)).testBit b = if b < 32 * n then v.testBit b else x.testBit b := by
  induction n with
  | zero => simp [withLimbs]
  | succ n ih =>
    rw [withLimbs, List.range_succ, List.foldl_concat, ← withLimbs, replaceLimb_testBit, limbWord_getLsbD, ih]
    obtain hlow | ⟨hlo, hhi⟩ | hhigh : b < 32 * n ∨ (32 * n ≤ b ∧ b < 32 * (n + 1)) ∨ 32 * (n + 1) ≤ b := by omega
    · rw [if_neg (by omega), if_pos hlow, if_pos (by omega)]
    · rw [if_pos (by omega), if_pos hhi, decide_eq_true (by omega), Bool.true_and, Nat.add_sub_cancel' hlo]
    · rw [if_neg (by omega), if_neg (by omega), if_neg (by omega)]

/-- The limbs of a value that fits replace the whole register. -/
theorem withLimbs_range {v x n : Nat} (hv : v < 2 ^ (32 * n)) (hx : x < 2 ^ (32 * n)) :
    withLimbs v x (List.range n) = v := by
  apply Nat.eq_of_testBit_eq
  intro b
  rw [withLimbs_range_testBit]
  split_ifs with hb
  · rfl
  · have hpow : 2 ^ (32 * n) ≤ 2 ^ b := Nat.pow_le_pow_right (by decide) (by omega)
    rw [Nat.testBit_lt_two_pow (hx.trans_le hpow), Nat.testBit_lt_two_pow (hv.trans_le hpow)]

/-- `s` with `x` in `Bk` and the host's operations `ops` still to come. -/
def loading (k : RegIx) (x : Nat) (ops : List BusOp) (s : State) : State := { s.setReg k x with hostOps := ops }

theorem loading_self (k : RegIx) (s : State) : loading k (s.reg k) s.hostOps s = s := by
  rw [loading, State.setReg, State.reg, Vector.get_eq_getElem, Vector.set_getElem_self]

theorem loading_setReg (k : RegIx) (x y : Nat) (ops : List BusOp) (s : State) :
    (loading k x ops s).setReg k y = loading k y ops s := by
  simp [loading, State.setReg]

theorem loading_reg (k : RegIx) (x : Nat) (ops : List BusOp) (s : State) : (loading k x ops s).reg k = x :=
  reg_setReg_self s k x

theorem busWrite_loading {s : State} (hw : s.LegalWidth) (hb : s.busy = false) (k : RegIx) {i : Nat} (hi : i < s.limbs)
    (x : Nat) (v : Word) (ops : List BusOp) :
    busWrite (limbOffset k i) v (loading k x ops s) = loading k (replaceLimb x i v) ops s := by
  have hidle : (loading k x ops s).busy = false := hb
  rw [busWrite_limbOffset (s := loading k x ops s) k v hw hi, writeLimb_idle hidle, loading_reg, loading_setReg]

theorem step_loading {s : State} (hw : s.LegalWidth) (hb : s.busy = false) (hr : s.rstLow = false)
    (hs : s.schedule = []) (k : RegIx) {i : Nat} (hi : i < s.limbs) (x : Nat) (v : Word) (ops : List BusOp) :
    step (loading k x (memWrite (limbOffset k i) v :: ops) s) = .next (loading k (replaceLimb x i v) ops s) :=
  (step_idle_write (s := loading k x (memWrite (limbOffset k i) v :: ops) s) hb hr hs rfl
    (limbOffset_aligned k (hi.trans_le hw.2))).trans (congrArg _ (busWrite_loading hw hb k hi x v ops))

theorem run_loading {s : State} (hw : s.LegalWidth) (hb : s.busy = false) (hr : s.rstLow = false)
    (hs : s.schedule = []) (k : RegIx) (v : Nat) {is : List Nat} (hi : ∀ i ∈ is, i < s.limbs) (x : Nat)
    (rest : List BusOp) :
    Host.Core.run core is.length
        (loading k x (is.map (fun i => memWrite (limbOffset k i) (limbWord v i)) ++ rest) s) =
      .next (loading k (withLimbs v x is) rest s) := by
  induction is generalizing x with
  | nil => rfl
  | cons i is ih =>
    obtain ⟨hi0, his⟩ := List.forall_mem_cons.1 hi
    have hstep := step_loading hw hb hr hs k hi0 x (limbWord v i)
      (is.map (fun i => memWrite (limbOffset k i) (limbWord v i)) ++ rest)
    exact (run_succ (M := core) hstep is.length).trans (ih his (replaceLimb x i (limbWord v i)))

/-- Settles O23: the writes put the value's limbs in one after the other, and all `L` of them leave nothing else. -/
theorem loadLineLoadsTheRegister : Obligations.LoadLineLoadsTheRegister := by
  intro s k v rest hw hf hv hb hr hs ho
  have hrun := run_loading hw hb hr hs k v (fun i hi => List.mem_range.1 hi) (s.reg k) rest
  rw [withLimbs_range hv (hf k), List.length_range] at hrun
  have hload : loading k (s.reg k) ((ScriptLine.ldb k v).ops s.limbs ++ rest) s = s := by rw [← ho, loading_self]
  exact (congrArg (Host.Core.run core s.limbs) hload.symm).trans hrun

end Sys2Proof.Machine

/-! SUPPORT. Proofs of the obligations about the control commands NOP and MOV (40_control.md), with the rules for a
command's word that the other families share. -/

namespace Sys2Proof.Machine

/-! ## Field errors among the words of one opcode (30_encoding.md R74 to R76) -/

theorem code_injective : Function.Injective Opcode.code := by
  intro op op' h
  have hsame : some op = some op' := by rw [← opcodeOf_code op, h, opcodeOf_code]
  exact Option.some.inj hsame

theorem decode_field_iff_not_isWordOf {op : Opcode} {w : Word} (hop : op.code = fieldOp w) :
    decode w = .error .field ↔ ¬ IsWordOf op w := by
  rw [decode_field_iff]
  constructor
  · rintro ⟨op', hop', hw⟩
    cases code_injective (hop'.trans hop.symm)
    exact hw
  · exact fun hw => ⟨op, hop, hw⟩

/-- A row's mask outside OP is clear in OP and in the fields its opcode uses, and set everywhere else. -/
theorem tableMask_outside_op (op : Opcode) :
    op.tableMask &&& 0xFFFFFF00 =
      ~~~packWord 0xFF (freeBits op.usesRd) (freeBits op.usesRa) (freeBits op.usesRb) (freeBits op.usesRn) := by
  cases op <;> rfl

/-- Once OP names the opcode, the decoder's other checks are that the mask's bits outside OP are zero. -/
theorem isWordOf_iff_masked_zero {op : Opcode} {w : Word} (hop : op.code = fieldOp w) :
    IsWordOf op w ↔ w &&& (op.tableMask &&& 0xFFFFFF00) = 0 := by
  have hzero : (0 : Word) = packWord 0 0 0 0 0 := rfl
  have hclear : fieldOp w &&& ~~~0xFF = 0 := BitVec.and_zero
  rw [tableMask_outside_op, hzero, eq_packWord_iff, reservedZero_and_not_packWord]
  simp only [fieldOp_and_not, fieldRd_and_not, fieldRa_and_not, fieldRb_and_not, fieldRn_and_not, fieldOp_packWord,
    fieldRd_packWord, fieldRa_packWord, fieldRb_packWord, fieldRn_packWord, and_not_freeBits, ← unusedZero_iff]
  exact ⟨fun hw => ⟨hw.reserved, hclear, hw.unused⟩, fun ⟨hz, _, hu⟩ => ⟨hop, hz, hu⟩⟩

/-- The bits that make a word of opcode `op` a field error: the reserved ones and those of the unused fields. -/
theorem decode_field_iff_masked {op : Opcode} {w : Word} (hop : op.code = fieldOp w) :
    decode w = .error .field ↔ w &&& (op.tableMask &&& 0xFFFFFF00) ≠ 0 :=
  (decode_field_iff_not_isWordOf hop).trans (not_congr (isWordOf_iff_masked_zero hop))

/-! ## The word of a command, written as its fields shifted into place (30_encoding.md R70) -/

theorem packWord_eq_or (op : BitVec 8) (rd ra rb rn : BitVec 3) :
    packWord op rd ra rb rn =
      op.setWidth 32 ||| rd.setWidth 32 <<< 8 ||| ra.setWidth 32 <<< 12 ||| rb.setWidth 32 <<< 16 |||
        rn.setWidth 32 <<< 20 := by
  apply BitVec.eq_of_getLsbD_eq
  intro i hi
  rw [packWord_getLsbD]
  interval_cases i <;> simp

theorem setWidth_ofRegIx (k : RegIx) : (ofRegIx k).setWidth 32 = BitVec.ofNat 32 k.val := by
  revert k
  decide

theorem encode_mov (rd ra : RegIx) :
    encode (.mov rd ra) = 0x01 ||| BitVec.ofNat 32 rd.val <<< 8 ||| BitVec.ofNat 32 ra.val <<< 12 := by
  rw [encode, packWord_eq_or]
  simp [Instr.opcode, Opcode.code, Instr.dest?, Instr.srcA?, Instr.srcB?, Instr.modulus?, usedField, setWidth_ofRegIx]

/-! ## The meanings of NOP and MOV (40_control.md R90, R91) -/

theorem exec_nop (s : State) : exec .nop s = .next (afterNothing s) := rfl

theorem exec_mov {s : State} {f : Inflight} {a : Nat} (hf : s.inflight = some f) (ha : f.va = some a) (rd ra : RegIx) :
    exec (.mov rd ra) s = .next (afterResult rd a s) := latched_of_some _ hf ha

theorem setReg_reg (s : State) (k : RegIx) : s.setReg k (s.reg k) = s := by
  rw [State.setReg, State.reg, Vector.get_eq_getElem, Vector.set_getElem_self]

/-- In a legal state MOV of a register to itself finds in its record what the register still holds. -/
theorem exec_mov_self {s : State} (h : s.Inv) {rd : RegIx} (hb : s.busy = true) (hc : s.cmd = encode (.mov rd rd)) :
    exec (.mov rd rd) s = .next (afterNothing s) := by
  obtain ⟨-, -, hm, -⟩ := h
  have hf : s.inflight = some (latch (encode (.mov rd rd)) s) := by rw [hm, if_pos hb, hc]
  have ha : (latch (encode (.mov rd rd)) s).va = some (s.reg rd) := by rw [latch_of_decode (decode_encode _)]; rfl
  rw [exec_mov hf ha, afterResult_eq, setReg_reg, afterNothing_eq]

/-- Settles O26: NOP's completion writes no register, and its word is the one with every bit zero. -/
theorem nopCompletesAndWritesNothing : Obligations.NopCompletesAndWritesNothing := by
  intro s
  refine ⟨rfl, exec_nop s, Bool.and_true s.ie, fun hb => ?_, fun hb => ?_, fun w hw => ?_⟩
  · have hlatch : latch 0 s = { word := 0, va := none, vb := none, vn := none } := latch_of_decode (decode_encode .nop) s
    rw [busWrite_cmd, writeCmd_idle hb, ← afterAccept_latch, hlatch]
  · exact writeCmd_busy hb 0
  · have hmask : w &&& Opcode.nop.tableMask = w := BitVec.and_allOnes
    have hword : IsWordOf .nop w ↔ w = 0 := by
      rw [← tableRow_iff, hmask]
      rfl
    exact (decode_field_iff_not_isWordOf (op := .nop) hw.symm).trans (not_congr hword)

/-- Settles O27: MOV's completion writes the latched value; with RD = RA that is the register's own. -/
theorem movCopiesTheRegister : Obligations.MovCopiesTheRegister := by
  intro s w a vb vn rd ra
  exact ⟨encode_mov rd ra, fun hf => exec_mov hf rfl rd ra, fun h hb hc => exec_mov_self h hb hc,
    fun u hu => decode_field_iff_masked (op := .mov) hu.symm⟩

end Sys2Proof.Machine

/-! SUPPORT. Proofs of the obligations about the Montgomery commands (41_montgomery.md). -/

namespace Sys2Proof.Machine

/-! ## The modulus checks and the inverse of the radix (41_montgomery.md R100) -/

theorem withOddModulus_even {n : Nat} (h0 : n ≠ 0) (h : n % 2 = 0) (r : Except ErrorCode Nat) :
    withOddModulus n r = .error .modEven := by rw [withOddModulus, if_neg h0, if_pos h]

theorem withOddModulus_odd {n : Nat} (h : n % 2 = 1) (r : Except ErrorCode Nat) : withOddModulus n r = r := by
  rw [withOddModulus, if_neg (by omega), if_neg (by omega)]

theorem radixInv_one (limbs : Nat) : radixInv limbs 1 = 0 := by simp [radixInv, modInv]

/-- `radixInv` is the inverse of the radix modulo every odd `n`, with 0 for `n = 1`. -/
theorem radixInv_isInverse (limbs : Nat) {n : Nat} (hn : n % 2 = 1) :
    radixInv limbs n < n ∧ radix limbs * radixInv limbs n % n = 1 % n := by
  obtain rfl | h3 : n = 1 ∨ 3 ≤ n := by omega
  · simp [radixInv_one]
  · rw [Nat.mod_eq_of_lt (show 1 < n by omega)]
    exact radixInv_spec limbs hn h3

theorem radix_mul_radixInv_cast (limbs : Nat) {n : Nat} (hn : n % 2 = 1) :
    (radix limbs : ZMod n) * radixInv limbs n = 1 := by
  have h := (ZMod.natCast_eq_natCast_iff' _ _ n).2 (radixInv_isInverse limbs hn).2
  rwa [Nat.cast_mul, Nat.cast_one] at h

/-! ## The results of R101, R103, R104 and R105 modulo an odd `n` -/

theorem montmulResult_range {n b : Nat} (limbs a : Nat) (hn : n % 2 = 1) (hb : n ≤ b) :
    montmulResult limbs a b n = .error .range := by
  rw [montmulResult, withOddModulus_odd hn, if_pos hb]

theorem montmulResult_odd {n b : Nat} (limbs a : Nat) (hn : n % 2 = 1) (hb : b < n) :
    montmulResult limbs a b n = .ok (a * b * radixInv limbs n % n) := by
  rw [montmulResult, withOddModulus_odd hn, if_neg hb.not_ge]
  split
  · next h1 => rw [h1, Nat.mod_one]
  · rfl

theorem tomontResult_odd {n : Nat} (limbs a : Nat) (hn : n % 2 = 1) :
    tomontResult limbs a n = .ok (a * radix limbs % n) := withOddModulus_odd hn _

theorem frommontResult_odd {n : Nat} (limbs a : Nat) (hn : n % 2 = 1) :
    frommontResult limbs a n = .ok (a * radixInv limbs n % n) := by
  rw [frommontResult, withOddModulus_odd hn]
  split
  · next h1 => rw [h1, Nat.mod_one]
  · rfl

theorem modmulResult_odd {n : Nat} (a b : Nat) (hn : n % 2 = 1) : modmulResult a b n = .ok (a * b % n) :=
  withOddModulus_odd hn _

/-- Settles O59: in `ZMod n` the two factors `R` and `Rinv` cancel. -/
theorem frommontUndoesTomont : Obligations.FrommontUndoesTomont := by
  intro limbs x n hn
  refine ⟨_, tomontResult_odd limbs x hn, (frommontResult_odd limbs _ hn).trans (congrArg _ ?_)⟩
  rw [← ZMod.natCast_eq_natCast_iff']
  push_cast [ZMod.natCast_mod]
  linear_combination (x : ZMod n) * radix_mul_radixInv_cast limbs hn

/-! ## The meanings of the commands, on the operands latched -/

section

variable {s : State} {f : Inflight} {a b n : Nat}

theorem exec_montmul (hf : s.inflight = some f) (ha : f.va = some a) (hb : f.vb = some b) (hn : f.vn = some n)
    (rd ra rb rn : RegIx) :
    exec (.montmul rd ra rb rn) s = .next (complete rd (montmulResult s.limbs a b n) s) :=
  (latched_of_some _ hf ha).trans ((latched_of_some _ hf hb).trans (latched_of_some _ hf hn))

theorem exec_tomont (hf : s.inflight = some f) (ha : f.va = some a) (hn : f.vn = some n) (rd ra rn : RegIx) :
    exec (.tomont rd ra rn) s = .next (complete rd (tomontResult s.limbs a n) s) :=
  (latched_of_some _ hf ha).trans (latched_of_some _ hf hn)

theorem exec_frommont (hf : s.inflight = some f) (ha : f.va = some a) (hn : f.vn = some n) (rd ra rn : RegIx) :
    exec (.frommont rd ra rn) s = .next (complete rd (frommontResult s.limbs a n) s) :=
  (latched_of_some _ hf ha).trans (latched_of_some _ hf hn)

theorem exec_modmul (hf : s.inflight = some f) (ha : f.va = some a) (hb : f.vb = some b) (hn : f.vn = some n)
    (rd ra rb rn : RegIx) : exec (.modmul rd ra rb rn) s = .next (complete rd (modmulResult a b n) s) :=
  (latched_of_some _ hf ha).trans ((latched_of_some _ hf hb).trans (latched_of_some _ hf hn))

end

section

variable {i : Instr} {s : State} {rd : RegIx} {n : Nat} {r : Except ErrorCode Nat}

/-- R100: the modulus 0 comes before every other check. -/
theorem exec_modZero (h : exec i s = .next (complete rd (withOddModulus n r) s)) (h0 : n = 0) :
    exec i s = .next (afterError .modZero s) := by
  rw [h, h0]
  rfl

/-- R100: an even modulus comes before the operands are looked at. -/
theorem exec_modEven (h : exec i s = .next (complete rd (withOddModulus n r) s)) (h0 : n ≠ 0) (he : n % 2 = 0) :
    exec i s = .next (afterError .modEven s) := by
  rw [h, withOddModulus_even h0 he]
  rfl

theorem exec_result {v : Nat} (h : exec i s = .next (complete rd r s)) (hr : r = .ok v) :
    exec i s = .next (afterResult rd v s) := by
  rw [h, hr]
  rfl

theorem exec_error {e : ErrorCode} (h : exec i s = .next (complete rd r s)) (hr : r = .error e) :
    exec i s = .next (afterError e s) := by
  rw [h, hr]
  rfl

end

/-! ## The words of the commands with a modulus (30_encoding.md R70, R74) -/

/-- The word of a command that uses RD, RA and RN. -/
theorem encode_of_three {i : Instr} {rd ra rn : RegIx} (hd : i.dest? = some rd) (ha : i.srcA? = some ra)
    (hb : i.srcB? = none) (hn : i.modulus? = some rn) :
    encode i = i.opcode.code.setWidth 32 ||| BitVec.ofNat 32 rd.val <<< 8 ||| BitVec.ofNat 32 ra.val <<< 12 |||
      BitVec.ofNat 32 rn.val <<< 20 := by
  rw [encode, packWord_eq_or, hd, ha, hb, hn]
  simp [usedField, setWidth_ofRegIx]

/-- The word of a command that uses all four fields. -/
theorem encode_of_four {i : Instr} {rd ra rb rn : RegIx} (hd : i.dest? = some rd) (ha : i.srcA? = some ra)
    (hb : i.srcB? = some rb) (hn : i.modulus? = some rn) :
    encode i = i.opcode.code.setWidth 32 ||| BitVec.ofNat 32 rd.val <<< 8 ||| BitVec.ofNat 32 ra.val <<< 12 |||
      BitVec.ofNat 32 rb.val <<< 16 ||| BitVec.ofNat 32 rn.val <<< 20 := by
  rw [encode, packWord_eq_or, hd, ha, hb, hn]
  simp only [usedField, setWidth_ofRegIx]

/-! ## The four commands (41_montgomery.md R101, R103, R104, R105) -/

/-- Settles O28: the checks in R101's order, then the product with `radixInv`, which is `Rinv`. -/
theorem montmulGivesTheMontgomeryProduct : Obligations.MontmulGivesTheMontgomeryProduct := by
  intro s w a b n rd ra rb rn hf
  have hexec := exec_montmul hf rfl rfl rfl rd ra rb rn
  refine ⟨exec_modZero hexec, exec_modEven hexec, fun hn hb => exec_error hexec (montmulResult_range _ a hn hb),
    fun hn hb => ?_, encode_of_four rfl rfl rfl rfl, fun u hu => decode_field_iff_masked (op := .montmul) hu.symm⟩
  obtain ⟨hlt, hinv⟩ := radixInv_isInverse s.limbs hn
  exact ⟨_, hlt, hinv, exec_result hexec (montmulResult_odd _ a hn hb)⟩

/-- Settles O29: after the checks of the modulus any `a` is reduced, so there is no other error. -/
theorem tomontMultipliesByTheRadix : Obligations.TomontMultipliesByTheRadix := by
  intro s w a n vb rd ra rn hf
  have hexec := exec_tomont hf rfl rfl rd ra rn
  exact ⟨exec_modZero hexec, exec_modEven hexec, fun hn => exec_result hexec (tomontResult_odd _ a hn),
    encode_of_three rfl rfl rfl rfl, fun u hu => decode_field_iff_masked (op := .tomont) hu.symm⟩

/-- Settles O30: FROMMONT has MONTMUL's inverse of the radix and no range check. -/
theorem frommontDividesByTheRadix : Obligations.FrommontDividesByTheRadix := by
  intro s w a n vb rd ra rn hf
  have hexec := exec_frommont hf rfl rfl rd ra rn
  refine ⟨exec_modZero hexec, exec_modEven hexec, fun hn => ?_, encode_of_three rfl rfl rfl rfl,
    fun u hu => decode_field_iff_masked (op := .frommont) hu.symm⟩
  obtain ⟨hlt, hinv⟩ := radixInv_isInverse s.limbs hn
  exact ⟨_, hlt, hinv, exec_result hexec (frommontResult_odd _ a hn)⟩

/-- Settles O31: after the checks of the modulus the exact product is reduced. -/
theorem modmulGivesTheExactProductReduced : Obligations.ModmulGivesTheExactProductReduced := by
  intro s w a b n rd ra rb rn hf
  have hexec := exec_modmul hf rfl rfl rfl rd ra rb rn
  exact ⟨exec_modZero hexec, exec_modEven hexec, fun hn => exec_result hexec (modmulResult_odd a b hn),
    encode_of_four rfl rfl rfl rfl, fun u hu => decode_field_iff_masked (op := .modmul) hu.symm⟩

end Sys2Proof.Machine

/-! SUPPORT. The reference algorithms of the three engines compute the commands' results (41_montgomery.md R102, R106;
42_euclid.md R121; 43_modexp.md R131). -/

namespace Sys2Proof.Machine

/-! ## The Montgomery loop (41_montgomery.md R102) -/

/-- `negInv32` is minus the inverse of the modulus modulo `2^32`. -/
theorem negInv32_spec {n : Nat} (hn : n % 2 = 1) : 2 ^ 32 ∣ negInv32 n * n + 1 := by
  have hodd : Nat.Coprime 2 (n % 2 ^ 32) := Nat.coprime_two_left.2 (Nat.odd_iff.2 (by omega))
  obtain ⟨hlt, hinv⟩ := modInv_spec (by decide) (hodd.symm.pow_right 32)
  set x := modInv (n % 2 ^ 32) (2 ^ 32)
  have hx : 1 ≡ x * n [MOD 2 ^ 32] :=
    calc 1 ≡ n % 2 ^ 32 * x [MOD 2 ^ 32] := (Nat.mod_eq_of_lt (by decide)).trans hinv.symm
      _ ≡ n * x [MOD 2 ^ 32] := (Nat.mod_modEq _ _).mul_right x
      _ = x * n := mul_comm _ _
  rw [← Nat.modEq_zero_iff_dvd]
  calc negInv32 n * n + 1 ≡ (2 ^ 32 - x) * n + x * n [MOD 2 ^ 32] := ((Nat.mod_modEq _ _).mul_right n).add hx
    _ = 2 ^ 32 * n := by rw [← add_mul, Nat.sub_add_cancel hlt.le]
    _ ≡ 0 [MOD 2 ^ 32] := Nat.modEq_zero_iff_dvd.2 (Nat.dvd_mul_right _ _)

/-- The sum that a digit's reduction divides by `2^32`. -/
theorem dvd_reduction {n n0 : Nat} (h : 2 ^ 32 ∣ n0 * n + 1) (u : Nat) : 2 ^ 32 ∣ u + u % 2 ^ 32 * n0 % 2 ^ 32 * n := by
  rw [← Nat.modEq_zero_iff_dvd] at h ⊢
  calc u + u % 2 ^ 32 * n0 % 2 ^ 32 * n ≡ u + u * n0 * n [MOD 2 ^ 32] :=
        Nat.ModEq.add_left _ (((Nat.mod_modEq _ _).trans ((Nat.mod_modEq _ _).mul_right _)).mul_right _)
    _ = u * (n0 * n + 1) := by ring
    _ ≡ u * 0 [MOD 2 ^ 32] := h.mul_left _

theorem montDigit_modEq {n n0 : Nat} (h : 2 ^ 32 ∣ n0 * n + 1) (a b i t : Nat) :
    montDigit n0 n a b i t * 2 ^ 32 ≡ t + digitOf a i * b [MOD n] := by
  rw [montDigit, Nat.div_mul_cancel (dvd_reduction h _)]
  exact (Nat.modEq_iff_dvd' (Nat.le_add_right _ _)).2 (by simp) |>.symm

theorem montDigit_lt {n b t : Nat} (n0 a i : Nat) (ht : t < n + b) : montDigit n0 n a b i t < n + b := by
  have hdigit : digitOf a i ≤ 2 ^ 32 - 1 := Nat.le_pred_of_lt (Nat.mod_lt _ (by decide))
  have hm : (t + digitOf a i * b) % 2 ^ 32 * n0 % 2 ^ 32 ≤ 2 ^ 32 - 1 := Nat.le_pred_of_lt (Nat.mod_lt _ (by decide))
  have h1 := Nat.mul_le_mul_right b hdigit
  have h2 := Nat.mul_le_mul_right n hm
  rw [montDigit, Nat.div_lt_iff_lt_mul (by decide)]
  omega

theorem montAcc_lt {n b : Nat} (n0 a : Nat) (hn : 0 < n) (k : Nat) : montAcc n0 n a b k < n + b := by
  induction k with
  | zero => exact Nat.add_pos_left hn b
  | succ k ih => exact montDigit_lt n0 a k ih

/-- The loop's invariant: after `k` digits the accumulator is `a mod 2^(32 k)` times `b`, divided by `2^(32 k)`. -/
theorem montAcc_modEq {n n0 : Nat} (h : 2 ^ 32 ∣ n0 * n + 1) (a b k : Nat) :
    montAcc n0 n a b k * 2 ^ (32 * k) ≡ a % 2 ^ (32 * k) * b [MOD n] := by
  induction k with
  | zero => simp [montAcc, Nat.mod_one, Nat.ModEq.refl]
  | succ k ih =>
    have hpow : 2 ^ (32 * (k + 1)) = 2 ^ (32 * k) * 2 ^ 32 := by rw [mul_add, pow_add]
    calc montAcc n0 n a b (k + 1) * 2 ^ (32 * (k + 1))
        = montDigit n0 n a b k (montAcc n0 n a b k) * 2 ^ 32 * 2 ^ (32 * k) := by rw [montAcc, hpow]; ring
      _ ≡ (montAcc n0 n a b k + digitOf a k * b) * 2 ^ (32 * k) [MOD n] := (montDigit_modEq h a b k _).mul_right _
      _ = montAcc n0 n a b k * 2 ^ (32 * k) + digitOf a k * b * 2 ^ (32 * k) := by ring
      _ ≡ a % 2 ^ (32 * k) * b + digitOf a k * b * 2 ^ (32 * k) [MOD n] := ih.add_right _
      _ = a % 2 ^ (32 * (k + 1)) * b := by rw [hpow, Nat.mod_mul, digitOf]; ring

theorem montReduce_lt {n t : Nat} (h : t < 2 * n) : montReduce n t < n := by
  unfold montReduce
  split <;> omega

theorem montReduce_modEq (n t : Nat) : montReduce n t ≡ t [MOD n] := by
  unfold montReduce
  split
  · next h => exact (Nat.modEq_iff_dvd' (Nat.sub_le t n)).2 (by rw [Nat.sub_sub_self h])
  · rfl

/-- `b = n` is let in for FROMMONT modulo 1 (R106 has `b = 1`). -/
theorem montmulRef_lt {n b : Nat} (limbs a : Nat) (hn : n % 2 = 1) (hb : b ≤ n) : montmulRef limbs a b n < n :=
  montReduce_lt (lt_of_lt_of_le (montAcc_lt _ a (by omega) limbs) (by omega))

theorem montmulRef_mul_radix {n limbs a : Nat} (b : Nat) (hn : n % 2 = 1) (ha : a < 2 ^ (32 * limbs)) :
    montmulRef limbs a b n * 2 ^ (32 * limbs) ≡ a * b [MOD n] := by
  have hacc := montAcc_modEq (negInv32_spec hn) a b limbs
  rw [Nat.mod_eq_of_lt ha] at hacc
  exact ((montReduce_modEq _ _).mul_right _).trans hacc

/-- Settles O55: the accumulator stays below `n + b`, and each digit multiplies it by `2^32` modulo `n`. -/
theorem montmulReferenceIsTheMontgomeryProduct : Obligations.MontmulReferenceIsTheMontgomeryProduct := by
  intro limbs a b n hn ha hb
  have hacc : montAcc (negInv32 n) n a b limbs < n + b := montAcc_lt _ a (by omega) limbs
  exact ⟨by omega, montmulRef_lt limbs a hn hb.le, montmulRef_mul_radix b hn ha⟩

/-! ## Products of the multiplier in `ZMod n` (41_montgomery.md R106) -/

theorem montmulRef_cast {n limbs a : Nat} (b : Nat) (hn : n % 2 = 1) (ha : a < 2 ^ (32 * limbs)) :
    (montmulRef limbs a b n : ZMod n) = a * b * radixInv limbs n := by
  have h := (ZMod.natCast_eq_natCast_iff _ _ n).2 (montmulRef_mul_radix b hn ha)
  rw [← radix] at h
  push_cast at h
  linear_combination (radixInv limbs n : ZMod n) * h -
    (montmulRef limbs a b n : ZMod n) * radix_mul_radixInv_cast limbs hn

theorem rSquared_cast (limbs n : Nat) : (rSquared limbs n : ZMod n) = (radix limbs : ZMod n) ^ 2 := by
  rw [rSquared, ZMod.natCast_mod, Nat.cast_pow]

theorem rSquared_lt {n : Nat} (limbs : Nat) (hn : n % 2 = 1) : rSquared limbs n < n := Nat.mod_lt _ (by omega)

/-- Two residues are equal when they are equal in `ZMod n`. -/
theorem eq_mod_of_cast {n x v : Nat} (hx : x < n) (h : (x : ZMod n) = v) : x = v % n := by
  rw [← Nat.mod_eq_of_lt hx]
  exact (ZMod.natCast_eq_natCast_iff' _ _ _).1 h

theorem montmulResult_ref {limbs a b n : Nat} (hn : n % 2 = 1) (ha : a < 2 ^ (32 * limbs)) (hb : b < n) :
    montmulResult limbs a b n = .ok (montmulRef limbs a b n) := by
  have hcast : (montmulRef limbs a b n : ZMod n) = (a * b * radixInv limbs n : Nat) := by
    push_cast
    exact montmulRef_cast b hn ha
  rw [montmulResult_odd limbs a hn hb, eq_mod_of_cast (montmulRef_lt limbs a hn hb.le) hcast]

/-- Multiplying by `R^2 mod n` takes a value into Montgomery form. -/
theorem tomontRef_cast {n limbs a : Nat} (hn : n % 2 = 1) (ha : a < 2 ^ (32 * limbs)) :
    (tomontRef limbs a n : ZMod n) = a * radix limbs := by
  rw [tomontRef, montmulRef_cast _ hn ha, rSquared_cast]
  linear_combination (a * radix limbs : ZMod n) * radix_mul_radixInv_cast limbs hn

theorem tomontRef_lt {n : Nat} (limbs a : Nat) (hn : n % 2 = 1) : tomontRef limbs a n < n :=
  montmulRef_lt limbs a hn (rSquared_lt limbs hn).le

theorem tomontResult_ref {limbs a n : Nat} (hn : n % 2 = 1) (ha : a < 2 ^ (32 * limbs)) :
    tomontResult limbs a n = .ok (tomontRef limbs a n) := by
  have hcast : (tomontRef limbs a n : ZMod n) = (a * radix limbs : Nat) := by
    rw [tomontRef_cast hn ha, Nat.cast_mul]
  rw [tomontResult_odd limbs a hn, eq_mod_of_cast (tomontRef_lt limbs a hn) hcast]

theorem frommontRef_lt {n : Nat} (limbs a : Nat) (hn : n % 2 = 1) : frommontRef limbs a n < n :=
  montmulRef_lt limbs a hn (by omega)

theorem frommontResult_ref {limbs a n : Nat} (hn : n % 2 = 1) (ha : a < 2 ^ (32 * limbs)) :
    frommontResult limbs a n = .ok (frommontRef limbs a n) := by
  have hcast : (frommontRef limbs a n : ZMod n) = (a * radixInv limbs n : Nat) := by
    rw [frommontRef, montmulRef_cast 1 hn ha, Nat.cast_mul, Nat.cast_one, mul_one]
  rw [frommontResult_odd limbs a hn, eq_mod_of_cast (frommontRef_lt limbs a hn) hcast]

theorem modmulRef_lt {n : Nat} (limbs a b : Nat) (hn : n % 2 = 1) : modmulRef limbs a b n < n :=
  montmulRef_lt limbs b hn (tomontRef_lt limbs a hn).le

theorem modmulResult_ref {limbs a b n : Nat} (hn : n % 2 = 1) (ha : a < 2 ^ (32 * limbs)) (hb : b < 2 ^ (32 * limbs)) :
    modmulResult a b n = .ok (modmulRef limbs a b n) := by
  have hcast : (modmulRef limbs a b n : ZMod n) = (a * b : Nat) := by
    rw [modmulRef, ← tomontRef, montmulRef_cast _ hn hb, tomontRef_cast hn ha, Nat.cast_mul]
    linear_combination (a * b : ZMod n) * radix_mul_radixInv_cast limbs hn
  rw [modmulResult_odd a b hn, eq_mod_of_cast (modmulRef_lt limbs a b hn) hcast]

/-- Settles O56: result and realisation are residues that agree in `ZMod n`. -/
theorem montgomeryRealisationsAgree : Obligations.MontgomeryRealisationsAgree := by
  intro limbs a b n hn _ ha hb
  exact ⟨tomontResult_ref hn ha, frommontResult_ref hn ha, modmulResult_ref hn ha hb⟩

end Sys2Proof.Machine

/-! SUPPORT. The units' work ends in the result of the command that loaded them (10_state.md R41), with what the reference
algorithms of the pipeline and of the Euclid engine compute (43_modexp.md R131; 42_euclid.md R121). -/

namespace Sys2Proof.Machine

/-! ## The exponentiation loop (43_modexp.md R131) -/

section

variable {limbs n base abar : Nat}

theorem expBit_lt (limbs : Nat) (hn : n % 2 = 1) (habar : abar < n) {x : Nat} (hx : x < n) (bit : Bool) :
    expBit limbs abar n x bit < n := by
  cases bit with
  | false => exact montmulRef_lt limbs x hn hx.le
  | true => exact montmulRef_lt limbs _ hn habar.le

/-- One scanned bit, in Montgomery form: the exponent so far is doubled and the bit added. -/
theorem expBit_cast (hn : n % 2 = 1) (hw : n < 2 ^ (32 * limbs)) (habar : (abar : ZMod n) = base * radix limbs)
    {x q : Nat} (hx : x < n) (hxq : (x : ZMod n) = base ^ q * radix limbs) (bit : Bool) :
    (expBit limbs abar n x bit : ZMod n) = base ^ (2 * q + bit.toNat) * radix limbs := by
  have hsquare : (montmulRef limbs x x n : ZMod n) = base ^ (2 * q) * radix limbs := by
    rw [montmulRef_cast x hn (hx.trans hw), hxq]
    linear_combination (base ^ (2 * q) * radix limbs : ZMod n) * radix_mul_radixInv_cast limbs hn
  cases bit with
  | false => exact hsquare
  | true =>
    have hlt := (montmulRef_lt limbs x hn hx.le).trans hw
    rw [expBit, if_pos rfl, montmulRef_cast abar hn hlt, hsquare, habar, Bool.toNat_true]
    linear_combination (base ^ (2 * q + 1) * radix limbs : ZMod n) * radix_mul_radixInv_cast limbs hn

theorem modexpLoop_spec (hn : n % 2 = 1) (hw : n < 2 ^ (32 * limbs)) (hlt : abar < n)
    (habar : (abar : ZMod n) = base * radix limbs) (e i : Nat) {x : Nat} (hx : x < n)
    (hxe : (x : ZMod n) = base ^ (e / 2 ^ i) * radix limbs) :
    modexpLoop limbs abar e n i x < n ∧ (modexpLoop limbs abar e n i x : ZMod n) = base ^ e * radix limbs := by
  induction i generalizing x with
  | zero => exact ⟨hx, by rw [modexpLoop, hxe, pow_zero, Nat.div_one]⟩
  | succ i ih =>
    have hbits : e / 2 ^ i = 2 * (e / 2 ^ (i + 1)) + (e.testBit i).toNat := by
      rw [Nat.toNat_testBit, pow_succ, ← Nat.div_div_eq_div_mul, Nat.div_add_mod]
    exact ih (expBit_lt limbs hn hlt hx _) (by rw [hbits, expBit_cast hn hw habar hx hxe])

end

/-- The pipeline's answer is the power, modulo 1 too. -/
theorem modexpRef_eq {limbs base n : Nat} (e : Nat) (hn : n % 2 = 1) (hw : n < 2 ^ (32 * limbs))
    (hbase : base < 2 ^ (32 * limbs)) : modexpRef limbs base e n = base ^ e % n := by
  have hstart : ((radix limbs % n : Nat) : ZMod n) = base ^ (e / 2 ^ bitlen e) * radix limbs := by
    rw [Nat.div_eq_of_lt (lt_two_pow_bitlen e), ZMod.natCast_mod, pow_zero, one_mul]
  obtain ⟨hlt, hloop⟩ := modexpLoop_spec hn hw (tomontRef_lt limbs base hn) (tomontRef_cast hn hbase) e (bitlen e)
    (Nat.mod_lt _ (by omega)) hstart
  refine eq_mod_of_cast (montmulRef_lt limbs _ hn (by omega)) ?_
  rw [modexpRef, ← tomontRef, montmulRef_cast 1 hn (hlt.trans hw), hloop]
  push_cast
  linear_combination (base ^ e : ZMod n) * radix_mul_radixInv_cast limbs hn

theorem modexpResult_odd {n : Nat} (base e : Nat) (hn : n % 2 = 1) : modexpResult base e n = .ok (base ^ e % n) := by
  rw [modexpResult, withOddModulus_odd hn]
  split
  · next h1 => rw [h1, Nat.mod_one]
  · rw [powMod_eq]

theorem modexpResult_ref {limbs base n : Nat} (e : Nat) (hn : n % 2 = 1) (hw : n < 2 ^ (32 * limbs))
    (hbase : base < 2 ^ (32 * limbs)) : modexpResult base e n = .ok (modexpRef limbs base e n) := by
  rw [modexpResult_odd base e hn, modexpRef_eq e hn hw hbase]

/-! ## The coefficients of extended Euclid (42_euclid.md R121) -/

/-- What every pass keeps beside `EuclidInv`: the coefficients alternate in sign, and they stay within the modulus. -/
structure CoefficientsBounded (n : Nat) (e : EuclidRegs) : Prop where
  signs : e.oldS * e.s ≤ 0
  sum : |e.s| * e.oldR + |e.oldS| * e.r = n
  oldS_le : |e.oldS| ≤ n
  s_le : |e.s| ≤ n

theorem euclidStart_bounded (a : Nat) {n : Nat} (hn : 1 ≤ n) : CoefficientsBounded n (euclidStart a n) where
  signs := by simp [euclidStart]
  sum := by simp [euclidStart]
  oldS_le := by simpa [euclidStart] using hn
  s_le := by simp [euclidStart]

theorem euclidStep_s (e : EuclidRegs) : (euclidStep e).s = e.oldS - (e.oldR / e.r : Nat) * e.s := rfl

/-- With coefficients of opposite signs nothing cancels in the new one. -/
theorem abs_euclidStep_s {e : EuclidRegs} (h : e.oldS * e.s ≤ 0) :
    |(euclidStep e).s| = |e.oldS| + (e.oldR / e.r : Nat) * |e.s| := by
  have hq : (0 : Int) ≤ (e.oldR / e.r : Nat) := Int.natCast_nonneg _
  have habs : |e.oldS + -((e.oldR / e.r : Nat) * e.s)| = |e.oldS| + |-((e.oldR / e.r : Nat) * e.s)| := by
    rw [abs_add_eq_add_abs_iff]
    rcases mul_nonpos_iff.1 h with ⟨h1, h2⟩ | ⟨h1, h2⟩
    · exact .inl ⟨h1, neg_nonneg.2 (mul_nonpos_of_nonneg_of_nonpos hq h2)⟩
    · exact .inr ⟨h1, neg_nonpos.2 (mul_nonneg hq h2)⟩
  rw [euclidStep_s, sub_eq_add_neg, habs, abs_neg, abs_mul, abs_of_nonneg hq]

theorem euclidStep_bounded {n : Nat} {e : EuclidRegs} (h : CoefficientsBounded n e) (hr : e.r ≠ 0) :
    CoefficientsBounded n (euclidStep e) := by
  have hs := abs_euclidStep_s h.signs
  have hdiv : (e.r : Int) * (e.oldR / e.r : Nat) + (e.oldR % e.r : Nat) = e.oldR := by
    exact_mod_cast Nat.div_add_mod e.oldR e.r
  have hsum : |(euclidStep e).s| * e.r + |e.s| * (euclidStep e).r = n := by
    rw [hs, euclidStep_r]
    linear_combination h.sum + |e.s| * hdiv
  refine ⟨?_, hsum, h.s_le, ?_⟩
  · change e.s * (euclidStep e).s ≤ 0
    have hq : (0 : Int) ≤ (e.oldR / e.r : Nat) * (e.s * e.s) := mul_nonneg (Int.natCast_nonneg _) (mul_self_nonneg _)
    rw [euclidStep_s]
    linarith [h.signs, hq]
  · have hr1 : (1 : Int) ≤ e.r := by omega
    have h1 := le_mul_of_one_le_right (abs_nonneg (euclidStep e).s) hr1
    have h2 : 0 ≤ |e.s| * ((euclidStep e).r : Int) := mul_nonneg (abs_nonneg _) (Int.natCast_nonneg _)
    linarith

theorem euclidLoop_bounded {n : Nat} (fuel : Nat) {e : EuclidRegs} (h : CoefficientsBounded n e) :
    CoefficientsBounded n (euclidLoop fuel e) := by
  induction fuel generalizing e with
  | zero => exact h
  | succ fuel ih =>
    rw [euclidLoop]
    split
    · exact h
    · next hr => exact ih (euclidStep_bounded h hr)

/-- R121's last line is the coefficient's residue. -/
theorem normalizeInverse_of_gcd_one {n : Nat} {e : EuclidRegs} (hr : e.oldR = 1) (hlow : -(n : Int) ≤ e.oldS)
    (hhigh : e.oldS < n) : normalizeInverse n e = some (e.oldS % n).toNat := by
  rw [normalizeInverse, if_neg (not_not.2 hr)]
  split
  · next hneg => rw [← Int.add_emod_right, Int.emod_eq_of_lt (by omega) (by omega)]
  · next hneg => rw [Int.emod_eq_of_lt (by omega) hhigh]

theorem normalizeInverse_of_gcd_ne_one {n : Nat} {e : EuclidRegs} (hr : e.oldR ≠ 1) : normalizeInverse n e = none := by
  rw [normalizeInverse, if_pos hr]

/-- `modinv_ref` is the inverse where there is one. -/
theorem modinvRef_eq (a : Nat) {n : Nat} (hn : 2 ≤ n) :
    modinvRef a n = if Nat.gcd a n = 1 then some (modInv a n) else none := by
  obtain ⟨⟨hdvd, -, -⟩, hgcd⟩ := euclidLoop_spec (n + 1) (euclidStart a n) (euclidStart_inv a n) (Nat.lt_succ_self n)
  have hbound := (euclidLoop_bounded (n + 1) (euclidStart_bounded a (by omega : 1 ≤ n))).oldS_le
  split
  · next hg =>
    rw [hgcd, hg] at hdvd
    obtain ⟨hlow, hhigh⟩ := abs_le.1 hbound
    have hne : (euclidLoop (n + 1) (euclidStart a n)).oldS ≠ n := by
      intro heq
      rw [heq] at hdvd
      have h1 : (n : Int) ∣ 1 := by simpa using (dvd_sub_right (Dvd.intro _ rfl)).1 hdvd
      have := Int.le_of_dvd one_pos h1
      omega
    exact normalizeInverse_of_gcd_one (hgcd.trans hg) hlow (lt_of_le_of_ne hhigh hne)
  · next hg => exact normalizeInverse_of_gcd_ne_one (by rwa [hgcd])

/-! ## What a unit's answer says of the command -/

/-- The result that an answer stands for: NOT_INVERTIBLE is ERR_NOT_INV (42_euclid.md R121). -/
def answerResult : Option Nat → Except ErrorCode Nat
  | some x => .ok x
  | none => .error .notInv

theorem modinvResult_ref (a : Nat) {n : Nat} (hn : 2 ≤ n) : modinvResult a n = answerResult (modinvRef a n) := by
  rw [modinvResult, if_neg (by omega), if_neg (by omega), modinvRef_eq a hn, ite_not]
  split <;> rfl

theorem modredResult_pos (a : Nat) {n : Nat} (hn : n ≠ 0) : modredResult a n = .ok (a % n) := if_neg hn

/-- What the multiplier will answer: its product, or the product that follows it. -/
def MontUnit.answer (limbs : Nat) (m : MontUnit) : Nat :=
  match m.pending with
  | none => montmulRef limbs m.x m.y m.modulus
  | some b => montmulRef limbs b (montmulRef limbs m.x m.y m.modulus) m.modulus

/-- The multiplier is inside the loop of R102. -/
structure MontUnit.InLoop (limbs : Nat) (m : MontUnit) : Prop where
  n0 : m.n0 = negInv32 m.modulus
  digit : m.digit ≤ limbs
  acc : m.acc = montAcc m.n0 m.modulus m.x m.y m.digit

/-- The unit's work ends in the answer `v`. -/
def Engine.HeadsFor (limbs : Nat) (v : Option Nat) : Engine → Prop
  | .idle => False
  | .mont m => m.InLoop limbs ∧ v = some (m.answer limbs)
  | .exp m => v = some (montmulRef limbs (modexpLoop limbs m.abar m.exponent m.modulus m.index m.product) 1 m.modulus)
  | .inverse n e => ∃ fuel, e.r < fuel ∧ v = normalizeInverse n (euclidLoop fuel e)
  | .divide e => v = some (e.oldR % e.r)
  | .finished w => v = w

section

variable {limbs : Nat} {v : Option Nat}

theorem headsFor_montWork {m : MontUnit} (h : (Engine.mont m).HeadsFor limbs v) : (montWork limbs m).HeadsFor limbs v := by
  obtain ⟨hm, hv⟩ := h
  unfold montWork
  split
  · next hlt => exact ⟨⟨hm.n0, hlt, by rw [hm.acc]; rfl⟩, hv⟩
  · next hge =>
    have hproduct : montReduce m.modulus m.acc = montmulRef limbs m.x m.y m.modulus := by
      rw [hm.acc, hm.n0, Nat.le_antisymm hm.digit (not_lt.1 hge)]
      rfl
    rw [MontUnit.answer] at hv
    split
    · next hp => rwa [hp, ← hproduct] at hv
    · next b hp =>
      rw [hp, ← hproduct] at hv
      exact ⟨⟨hm.n0, Nat.zero_le _, rfl⟩, hv⟩

theorem headsFor_expWork {m : ExpUnit} (h : (Engine.exp m).HeadsFor limbs v) : (expWork limbs m).HeadsFor limbs v := by
  rw [Engine.HeadsFor] at h
  unfold expWork
  split
  · next hi => rwa [hi] at h
  · next i hi => rwa [hi] at h

/-- Every hidden turn keeps the answer the unit heads for. -/
theorem headsFor_work {e : Engine} (h : e.HeadsFor limbs v) : (Engine.work limbs e).HeadsFor limbs v := by
  cases e with
  | idle => exact h
  | mont m => exact headsFor_montWork h
  | exp m => exact headsFor_expWork h
  | inverse n e =>
    obtain ⟨_ | fuel, hfuel, hv⟩ := h
    · omega
    rw [euclidLoop] at hv
    rw [Engine.work]
    split at hv
    · next hr => rw [if_pos hr]; exact hv
    · next hr =>
      rw [if_neg hr]
      have hlt := Nat.mod_lt e.oldR (Nat.pos_of_ne_zero hr)
      exact ⟨fuel, by rw [euclidStep_r]; omega, hv⟩
  | divide e => exact h.trans (congrArg some (euclidStep_r e).symm)
  | finished w => exact h

theorem eq_of_headsFor_of_finished {e : Engine} {u : Option Nat} {k : Nat} (h : e.HeadsFor limbs u)
    (hwork : Engine.workFor limbs k e = .finished v) : u = v := by
  induction k generalizing e with
  | zero =>
    rw [Engine.workFor] at hwork
    rwa [hwork] at h
  | succ k ih => exact ih (headsFor_work h) hwork

end

/-! ## What acceptance loads (41_montgomery.md R106, 42_euclid.md R121, R122, 43_modexp.md R131) -/

theorem montStart_headsFor (limbs n x y : Nat) :
    (montStart limbs n x y none).HeadsFor limbs (some (montmulRef limbs x y n)) :=
  ⟨⟨rfl, Nat.zero_le _, rfl⟩, rfl⟩

theorem modmulStart_headsFor (limbs a b n : Nat) :
    (montStart limbs n a (rSquared limbs n) (some b)).HeadsFor limbs (some (modmulRef limbs a b n)) :=
  ⟨⟨rfl, Nat.zero_le _, rfl⟩, rfl⟩

theorem expStart_headsFor (limbs base e n : Nat) :
    (expStart limbs base e n).HeadsFor limbs (some (modexpRef limbs base e n)) := rfl

theorem inverseStart_headsFor (limbs a n : Nat) :
    (Engine.inverse n (euclidStart a n)).HeadsFor limbs (modinvRef a n) := ⟨n + 1, Nat.lt_succ_self n, rfl⟩

theorem divideStart_headsFor (limbs a n : Nat) : (Engine.divide (euclidStart a n)).HeadsFor limbs (some (a % n)) := rfl

theorem workFor_idle (limbs k : Nat) : Engine.workFor limbs k .idle = .idle := by
  induction k with
  | zero => rfl
  | succ k ih => exact ih

/-- A unit that has an answer has passed the checks under which it is loaded. -/
theorem loaded_of_finished {limbs k : Nat} {c : Prop} [Decidable c] {e : Engine} {v : Option Nat}
    (h : Engine.workFor limbs k (if c then e else .idle) = .finished v) : c ∧ Engine.workFor limbs k e = .finished v := by
  split at h
  · next hc => exact ⟨hc, h⟩
  · rw [workFor_idle] at h
    cases h

section

variable {limbs : Nat} {f : Inflight} {a b n : Nat} {rd ra rb rn : RegIx}

theorem load_mov (hd : decode f.word = .ok (.mov rd ra)) : Engine.load limbs f = .idle := by
  rw [Engine.load, hd]

theorem load_montmul (hd : decode f.word = .ok (.montmul rd ra rb rn)) (ha : f.va = some a) (hb : f.vb = some b)
    (hn : f.vn = some n) :
    Engine.load limbs f = if n % 2 = 1 ∧ b < n then montStart limbs n a b none else .idle := by
  simp only [Engine.load, hd, ha, hb, hn]

theorem load_tomont (hd : decode f.word = .ok (.tomont rd ra rn)) (ha : f.va = some a) (hn : f.vn = some n) :
    Engine.load limbs f = if n % 2 = 1 then montStart limbs n a (rSquared limbs n) none else .idle := by
  simp only [Engine.load, hd, ha, hn]

theorem load_frommont (hd : decode f.word = .ok (.frommont rd ra rn)) (ha : f.va = some a) (hn : f.vn = some n) :
    Engine.load limbs f = if n % 2 = 1 then montStart limbs n a 1 none else .idle := by
  simp only [Engine.load, hd, ha, hn]

theorem load_modmul (hd : decode f.word = .ok (.modmul rd ra rb rn)) (ha : f.va = some a) (hb : f.vb = some b)
    (hn : f.vn = some n) :
    Engine.load limbs f = if n % 2 = 1 then montStart limbs n a (rSquared limbs n) (some b) else .idle := by
  simp only [Engine.load, hd, ha, hb, hn]

theorem load_modinv (hd : decode f.word = .ok (.modinv rd ra rn)) (ha : f.va = some a) (hn : f.vn = some n) :
    Engine.load limbs f = if 2 ≤ n then .inverse n (euclidStart a n) else .idle := by
  simp only [Engine.load, hd, ha, hn]

theorem load_modred (hd : decode f.word = .ok (.modred rd ra rn)) (ha : f.va = some a) (hn : f.vn = some n) :
    Engine.load limbs f = if n ≠ 0 then .divide (euclidStart a n) else .idle := by
  simp only [Engine.load, hd, ha, hn]

theorem load_modexp (hd : decode f.word = .ok (.modexp rd ra rb rn)) (ha : f.va = some a) (hb : f.vb = some b)
    (hn : f.vn = some n) :
    Engine.load limbs f = if n % 2 = 1 then expStart limbs a b n else .idle := by
  simp only [Engine.load, hd, ha, hb, hn]

end

/-! ## The meanings of the other commands with arithmetic -/

section

variable {s : State} {f : Inflight} {a b n : Nat}

theorem exec_modinv (hf : s.inflight = some f) (ha : f.va = some a) (hn : f.vn = some n) (rd ra rn : RegIx) :
    exec (.modinv rd ra rn) s = .next (complete rd (modinvResult a n) s) :=
  (latched_of_some _ hf ha).trans (latched_of_some _ hf hn)

theorem exec_modred (hf : s.inflight = some f) (ha : f.va = some a) (hn : f.vn = some n) (rd ra rn : RegIx) :
    exec (.modred rd ra rn) s = .next (complete rd (modredResult a n) s) :=
  (latched_of_some _ hf ha).trans (latched_of_some _ hf hn)

theorem exec_modexp (hf : s.inflight = some f) (ha : f.va = some a) (hb : f.vb = some b) (hn : f.vn = some n)
    (rd ra rb rn : RegIx) : exec (.modexp rd ra rb rn) s = .next (complete rd (modexpResult a b n) s) :=
  (latched_of_some _ hf ha).trans ((latched_of_some _ hf hb).trans (latched_of_some _ hf hn))

end

/-! ## The units and the completion step (O53) -/

/-- In a legal state the record holds what the source registers of its command hold. -/
theorem operands_of_inv {s : State} (h : s.Inv) {f : Inflight} {i : Instr} (hf : s.inflight = some f)
    (hd : decode f.word = .ok i) :
    f.va = i.srcA?.map s.reg ∧ f.vb = i.srcB?.map s.reg ∧ f.vn = i.modulus?.map s.reg := by
  obtain ⟨-, rfl⟩ := inflight_of_inv h hf
  rw [latch_word] at hd
  rw [latch_of_decode hd]
  exact ⟨rfl, rfl, rfl⟩

/-- A command whose unit heads for its result completes with whatever answer the unit has come to. -/
theorem exec_of_headsFor {i : Instr} {s : State} {rd : RegIx} {r : Except ErrorCode Nat} {e : Engine} {u v : Option Nat}
    {k : Nat} (hexec : exec i s = .next (complete rd r s)) (hhead : e.HeadsFor s.limbs u) (hr : r = answerResult u)
    (hwork : Engine.workFor s.limbs k e = .finished v) : exec i s = .next (complete rd (answerResult v) s) := by
  rw [hexec, hr, eq_of_headsFor_of_finished hhead hwork]

/-- The units' answer is the completion's result, command by command. -/
theorem exec_of_finished {s : State} (h : s.Inv) {f : Inflight} {i : Instr} {rd : RegIx} {k : Nat} {v : Option Nat}
    (hf : s.inflight = some f) (hd : decode f.word = .ok i) (hdest : i.dest? = some rd)
    (hwork : Engine.workFor s.limbs k (Engine.load s.limbs f) = .finished v) :
    exec i s = .next (complete rd (answerResult v) s) := by
  have hfit : ∀ j, s.reg j < 2 ^ (32 * s.limbs) := h.registersFit
  obtain ⟨ha, hb, hn⟩ := operands_of_inv h hf hd
  cases i with
  | nop => cases hdest
  | mov rd' ra =>
    rw [load_mov hd, workFor_idle] at hwork
    cases hwork
  | montmul rd' ra rb rn =>
    cases hdest
    rw [load_montmul hd ha hb hn] at hwork
    obtain ⟨⟨hodd, hlt⟩, hwork⟩ := loaded_of_finished hwork
    exact exec_of_headsFor (exec_montmul hf ha hb hn _ _ _ _) (montStart_headsFor _ _ _ _)
      (montmulResult_ref hodd (hfit ra) hlt) hwork
  | tomont rd' ra rn =>
    cases hdest
    rw [load_tomont hd ha hn] at hwork
    obtain ⟨hodd, hwork⟩ := loaded_of_finished hwork
    exact exec_of_headsFor (exec_tomont hf ha hn _ _ _) (montStart_headsFor _ _ _ _) (tomontResult_ref hodd (hfit ra)) hwork
  | frommont rd' ra rn =>
    cases hdest
    rw [load_frommont hd ha hn] at hwork
    obtain ⟨hodd, hwork⟩ := loaded_of_finished hwork
    exact exec_of_headsFor (exec_frommont hf ha hn _ _ _) (montStart_headsFor _ _ _ _) (frommontResult_ref hodd (hfit ra))
      hwork
  | modmul rd' ra rb rn =>
    cases hdest
    rw [load_modmul hd ha hb hn] at hwork
    obtain ⟨hodd, hwork⟩ := loaded_of_finished hwork
    exact exec_of_headsFor (exec_modmul hf ha hb hn _ _ _ _) (modmulStart_headsFor _ _ _ _)
      (modmulResult_ref hodd (hfit ra) (hfit rb)) hwork
  | modinv rd' ra rn =>
    cases hdest
    rw [load_modinv hd ha hn] at hwork
    obtain ⟨h2, hwork⟩ := loaded_of_finished hwork
    exact exec_of_headsFor (exec_modinv hf ha hn _ _ _) (inverseStart_headsFor _ _ _) (modinvResult_ref _ h2) hwork
  | modred rd' ra rn =>
    cases hdest
    rw [load_modred hd ha hn] at hwork
    obtain ⟨h0, hwork⟩ := loaded_of_finished hwork
    exact exec_of_headsFor (exec_modred hf ha hn _ _ _) (divideStart_headsFor _ _ _) (modredResult_pos _ h0) hwork
  | modexp rd' ra rb rn =>
    cases hdest
    rw [load_modexp hd ha hb hn] at hwork
    obtain ⟨hodd, hwork⟩ := loaded_of_finished hwork
    exact exec_of_headsFor (exec_modexp hf ha hb hn _ _ _ _) (expStart_headsFor _ _ _ _)
      (modexpResult_ref _ hodd (hfit rn) (hfit ra)) hwork

/-- Settles O53: a hidden turn never changes the answer a unit heads for, and acceptance loads a unit that heads for the
command's result. -/
theorem engineAnswerIsTheCommandsResult : Obligations.EngineAnswerIsTheCommandsResult := by
  intro s f i rd k v h hf hd hdest hwork
  rw [exec_of_finished h hf hd hdest hwork]
  cases v <;> rfl

end Sys2Proof.Machine

/-! SUPPORT. Proofs of the obligations about the extended-Euclidean commands (42_euclid.md). -/

namespace Sys2Proof.Machine

/-! ## The results of R120, check by check -/

theorem modinvResult_zero {a n : Nat} (hn : n = 0) : modinvResult a n = .error .modZero := if_pos hn

theorem modinvResult_one {a n : Nat} (hn : n = 1) : modinvResult a n = .error .notInv := by
  rw [modinvResult, if_neg (by omega), if_pos hn]

theorem modinvResult_of_gcd_ne_one {a n : Nat} (hn : 2 ≤ n) (hg : Nat.gcd a n ≠ 1) :
    modinvResult a n = .error .notInv := by
  rw [modinvResult, if_neg (by omega), if_neg (by omega), if_pos hg]

theorem modinvResult_of_gcd_one {a n : Nat} (hn : 2 ≤ n) (hg : Nat.gcd a n = 1) :
    modinvResult a n = .ok (modInv a n) := by
  rw [modinvResult, if_neg (by omega), if_neg (by omega), if_neg (not_not.2 hg)]

theorem modredResult_zero {a n : Nat} (hn : n = 0) : modredResult a n = .error .modZero := if_pos hn

/-! ## The commands and the reference algorithm (42_euclid.md R120, R121, R122) -/

/-- Settles O32: the checks in R120's order, then the coefficient of extended Euclid, which is the inverse. -/
theorem modinvGivesTheInverseOrItsError : Obligations.ModinvGivesTheInverseOrItsError := by
  intro s w a n vb rd ra rn hf
  have hexec := exec_modinv hf rfl rfl rd ra rn
  refine ⟨fun h0 => exec_error hexec (modinvResult_zero h0), fun h1 => exec_error hexec (modinvResult_one h1),
    fun hn hg => exec_error hexec (modinvResult_of_gcd_ne_one hn hg), fun hn hg => ?_, encode_of_three rfl rfl rfl rfl,
    fun u hu => decode_field_iff_masked (op := .modinv) hu.symm⟩
  obtain ⟨hlt, hinv⟩ := modInv_spec hn hg
  exact ⟨_, hlt, hinv, exec_result hexec (modinvResult_of_gcd_one hn hg)⟩

/-- Settles O57: with its coefficients bounded by `n`, one addition of `n` makes the procedure's coefficient the inverse. -/
theorem modinvReferenceAgrees : Obligations.ModinvReferenceAgrees := by
  intro a n hn
  rw [modinvResult_ref a hn]
  cases modinvRef a n with
  | none => rfl
  | some x => rfl

/-- Settles O33: only the modulus 0 is an error; any other modulus, even or 1, reduces. -/
theorem modredReducesByAnyModulus : Obligations.ModredReducesByAnyModulus := by
  intro s w a n vb rd ra rn hf
  have hexec := exec_modred hf rfl rfl rd ra rn
  exact ⟨fun h0 => exec_error hexec (modredResult_zero h0), fun h0 => exec_result hexec (modredResult_pos a h0),
    encode_of_three rfl rfl rfl rfl, fun u hu => decode_field_iff_masked (op := .modred) hu.symm⟩

end Sys2Proof.Machine

/-! SUPPORT. Proofs of the obligations about the exponentiation pipeline (43_modexp.md). -/

namespace Sys2Proof.Machine

/-! ## The command and the reference algorithm (43_modexp.md R130, R131) -/

/-- A MODEXP command modulo an odd number completes with the power reduced. -/
theorem exec_modexp_odd {s : State} {f : Inflight} {base e n : Nat} (hf : s.inflight = some f) (ha : f.va = some base)
    (hb : f.vb = some e) (hn : f.vn = some n) (hodd : n % 2 = 1) (rd ra rb rn : RegIx) :
    exec (.modexp rd ra rb rn) s = .next (afterResult rd (base ^ e % n) s) :=
  exec_result (exec_modexp hf ha hb hn rd ra rb rn) (modexpResult_odd base e hodd)

/-- Settles O34: after the checks of the modulus the power is reduced; modulo 1 it is 0. -/
theorem modexpGivesThePowerReduced : Obligations.ModexpGivesThePowerReduced := by
  intro s w base e n rd ra rb rn hf
  have hexec := exec_modexp hf rfl rfl rfl rd ra rb rn
  exact ⟨exec_modZero hexec, exec_modEven hexec, fun hn => exec_modexp_odd hf rfl rfl rfl hn rd ra rb rn,
    encode_of_four rfl rfl rfl rfl, fun u hu => decode_field_iff_masked (op := .modexp) hu.symm⟩

/-- Settles O58: the loop keeps the power of the exponent's scanned bits in Montgomery form. -/
theorem modexpReferenceAgrees : Obligations.ModexpReferenceAgrees :=
  fun _ _ e _ hn _ hw hbase => modexpRef_eq e hn hw hbase

/-! ## The RSA round trip (43_modexp.md R132) -/

/-- Fermat's little theorem for an exponent that is 1 modulo `p - 1`; a residue 0 needs no inverse. -/
theorem pow_modEq_self_of_prime {p : Nat} (hp : p.Prime) (m : Nat) {j : Nat} (hj : p - 1 ∣ j) :
    m ^ (j + 1) ≡ m [MOD p] := by
  have := Fact.mk hp
  obtain ⟨k, rfl⟩ := hj
  rw [← ZMod.natCast_eq_natCast_iff, Nat.cast_pow]
  by_cases hm : (m : ZMod p) = 0
  · rw [hm, zero_pow (Nat.succ_ne_zero _)]
  · rw [pow_succ, pow_mul, ZMod.pow_card_sub_one_eq_one hm, one_pow, one_mul]

/-- The same modulo two distinct primes together, whether or not `m` is coprime to their product. -/
theorem pow_mod_mul_primes_eq_self {p q m j : Nat} (hp : p.Prime) (hq : q.Prime) (hne : p ≠ q) (hm : m < p * q)
    (hj : (p - 1) * (q - 1) ∣ j) : m ^ (j + 1) % (p * q) = m := by
  have hcoprime : Nat.Coprime p q := (Nat.coprime_primes hp hq).2 hne
  have hmod : m ^ (j + 1) ≡ m [MOD p * q] :=
    (Nat.modEq_and_modEq_iff_modEq_mul hcoprime).1
      ⟨pow_modEq_self_of_prime hp m (dvd_of_mul_right_dvd hj),
        pow_modEq_self_of_prime hq m (dvd_of_mul_left_dvd hj)⟩
  exact Nat.mod_eq_of_modEq hmod hm

/-- Decryption undoes encryption: the exponents multiply to 1 modulo `(p - 1) (q - 1)`. -/
theorem rsa_power_round_trip {p q e d m : Nat} (hp : p.Prime) (hq : q.Prime) (hne : p ≠ q) (hm : m < p * q)
    (hed : e * d % ((p - 1) * (q - 1)) = 1) : (m ^ e % (p * q)) ^ d % (p * q) = m := by
  have hdiv := Nat.div_add_mod (e * d) ((p - 1) * (q - 1))
  rw [hed] at hdiv
  rw [← Nat.pow_mod, ← pow_mul, ← hdiv]
  exact pow_mod_mul_primes_eq_self hp hq hne hm (dvd_mul_right _ _)

/-- Settles O60: the first command leaves `m ^ e` reduced in its destination, and the second takes it back to `m`. -/
theorem rsaRoundTripReturnsTheMessage : Obligations.RsaRoundTripReturnsTheMessage := by
  intro p q e d m s s' t w w' rd ra rb rn rd' ra' rb' rn' hp hq hne hodd hed hm hf hfirst hf'
  rw [exec_modexp_odd hf rfl rfl rfl hodd] at hfirst
  obtain rfl : afterResult rd (m ^ e % (p * q)) s = t := by injection hfirst
  have hcipher : (afterResult rd (m ^ e % (p * q)) s).reg rd = m ^ e % (p * q) := reg_setReg_self s rd _
  rw [hcipher] at hf'
  rw [exec_modexp_odd hf' rfl rfl rfl hodd, rsa_power_round_trip hp hq hne hm hed]

end Sys2Proof.Machine

/-! SUPPORT. Proofs of the obligations about error completions and the interrupt (60_exceptions.md). -/

namespace Sys2Proof.Machine

/-! ## Every legal state takes a next step (60_exceptions.md R140, R147) -/

/-- The engine's turn faults only in a state without the record in flight, or the operand in it, that BUSY = 1 promises. -/
theorem engineTurn_of_inv {s : State} (h : s.Inv) : ∃ t, engineTurn s = .next t := by
  obtain ⟨-, -, hflight, -⟩ := h
  cases hb : s.busy with
  | false => exact ⟨s, engineTurn_idle hb⟩
  | true =>
    have hf : s.inflight = some (latch s.cmd s) := hflight.trans (if_pos hb)
    cases hd : decode s.cmd with
    | error e => exact ⟨_, engineTurn_of_error hb hf (by rw [latch_word, hd])⟩
    | ok i =>
      obtain ⟨t, ht⟩ := exec_of_latch hf hd
      exact ⟨t, (engineTurn_of_decode hb hf (by rw [latch_word, hd])).trans ht⟩

/-- The host's turn performs every operation that the spec defines. -/
theorem step_of_wf_host {s : State} (hm : s.mover = .host) (hop : ∀ op ∈ s.hostOps.head?, op.wf = true) :
    ∃ t, step s = .next t := by
  cases ho : s.hostOps with
  | nil => exact ⟨_, (step_of_host hm).trans (hostTurn_nil ho)⟩
  | cons op rest =>
    have hwf : op.wf = true := hop op (by rw [ho]; rfl)
    cases op with
    | read a => exact ((onlyAlignedWordAccessesArePerformed s a 0 rest hm).1 ho).2 (of_decide_eq_true hwf)
    | write a v =>
      obtain ⟨t, ht, -⟩ := ((onlyAlignedWordAccessesArePerformed s a v rest hm).2 ho).2 (of_decide_eq_true hwf)
      exact ⟨t, ht⟩
    | poll => exact ⟨_, step_host_poll hm ho⟩

/-- Settles O42: agent by agent; only the host's and the engine's turn could stop the machine. -/
theorem legalStateTakesANextStep : Obligations.LegalStateTakesANextStep := by
  intro s hs hhost
  cases hm : s.mover with
  | host => exact step_of_wf_host hm (hhost hm)
  | engine => rw [step_of_engine hm]; exact engineTurn_of_inv (s := s.advance) hs
  | work | resetLow | resetHigh => exact ⟨_, by rw [step, hm, takeTurn]⟩

/-! ## Error completions (60_exceptions.md R140) -/

/-- A completion step that answers a next state had a command in flight. -/
theorem inflight_of_engine_next {s t : State} (hm : s.mover = .engine) (hb : s.busy = true) (h : step s = .next t) :
    ∃ f, s.inflight = some f := by
  cases hf : s.inflight with
  | some f => exact ⟨f, rfl⟩
  | none =>
    rw [step_of_engine hm] at h
    simp [engineTurn, hb, hf] at h

/-- Settles O36: a completion changes STATUS and at most the destination, and with an error no register; the block is idle
after it, so it accepts the next command. -/
theorem errorCompletionChangesOnlyStatus : Obligations.ErrorCompletionChangesOnlyStatus := by
  intro s t e hm hb h he
  obtain ⟨f, hf⟩ := inflight_of_engine_next hm hb h
  obtain ⟨⟨code, hstatus⟩, hregs, -⟩ := everyCompletionUpdatesStatusAndAtMostItsDestination s t f hm hb hf h
  obtain rfl : code = .error e := (congrArg State.errcode hstatus).symm.trans he
  have ht : t = afterError e s.advance :=
    calc t = { t with regs := s.regs } := by rw [← hregs (by simp [he])]
      _ = afterError e s.advance := hstatus
  refine ⟨ht, fun w => ?_⟩
  rw [busWrite_cmd, writeCmd_idle (by rw [ht]; rfl)]
  exact ⟨rfl, rfl⟩

/-! ## The interrupt level (60_exceptions.md R144, R145) -/

theorem irq_iff {s : State} : s.irq = true ↔ s.ie = true ∧ s.done = true := Bool.and_eq_true_iff

theorem irq_of_masked {s : State} (h : s.ie = false) : s.irq = false := by rw [State.irq, h, Bool.false_and]

theorem irq_of_not_done {s : State} (h : s.done = false) : s.irq = false := by rw [State.irq, h, Bool.and_false]

/-- A write sets no DONE. -/
theorem ControlAfterWrite.done_of_done {p : Place} {v : Word} {s t : State} (h : ControlAfterWrite p v s t)
    (ht : t.done = true) : s.done = true := by
  rw [h.done] at ht
  split at ht
  · cases ht
  · exact ht

/-- A write that raises IRQ is of CTRL, enabling the interrupt of a command that is done. -/
theorem ControlAfterWrite.enables_of_irq {p : Place} {v : Word} {s t : State} (h : ControlAfterWrite p v s t)
    (hs : s.irq = false) (ht : t.irq = true) :
    s.done = true ∧ p = .ctrl ∧ v.getLsbD 0 = true ∧ v.getLsbD 1 = false := by
  obtain ⟨hie, hdone⟩ := irq_iff.1 ht
  have hsdone := h.done_of_done hdone
  rw [h.ie] at hie
  split at hie
  · next hp => exact ⟨hsdone, hp, by simpa [-BitVec.getLsbD_eq_getElem] using hie⟩
  · exact absurd (irq_iff.2 ⟨hie, hsdone⟩) (by simp [hs])

/-- Settles O46: of the events of `ControlStep` only a completion and a write leave IRQ asserted where it was not. -/
theorem interruptRisesOnlyByCompletionOrEnable : Obligations.InterruptRisesOnlyByCompletionOrEnable := by
  intro s t h hs ht
  obtain ⟨hie, hdone⟩ := irq_iff.1 ht
  cases step_control h with
  | quiet _ _ _ hc => exact absurd (irq_iff.2 ⟨hc.ie ▸ hie, hc.done ▸ hdone⟩) (by simp [hs])
  | wrote p v hw hc =>
    obtain ⟨hsdone, hp, hv⟩ := hc.enables_of_irq hs ht
    exact .inr ⟨hsdone, v, (hw.ctrl v).2 ⟨hp, rfl⟩, hv⟩
  | completed hm hb c hc => exact .inl ⟨hm, hb, hc.ie.symm.trans hie⟩
  | reset _ hc => exact absurd (hc.ie.symm.trans hie) (by simp)

/-- Settles O39: each clearing event leaves IE or DONE 0. -/
theorem interruptFollowsEnableAndDone : Obligations.InterruptFollowsEnableAndDone := by
  intro s v
  have hrelease : (releaseReset (assertReset s)).ie = false := by rw [releaseReset_low rfl]; rfl
  refine ⟨irq_iff, fun h1 => ?_, fun h0 => ⟨?_, fun h1 => ?_⟩, fun h0 h1 => ?_, fun hb => ?_, rfl, rfl,
    irq_of_masked hrelease⟩
  · rw [busWrite_status]
    exact irq_of_not_done (by rw [writeStatus_done, h1, Bool.not_true, Bool.and_false])
  · rw [busWrite_ctrl]
    exact irq_of_masked (by rw [(writeCtrl_control v s).ie, if_pos rfl, h0, Bool.false_and])
  · rw [busWrite_ctrl, writeCtrl_enable h1]
  · rw [busWrite_ctrl, writeCtrl_enable h1, State.irq, h0, Bool.true_and]
  · rw [busWrite_cmd, writeCmd_idle hb]
    exact irq_of_not_done rfl

end Sys2Proof.Machine

/-! SUPPORT. Proofs of the obligations about the resets and about the end of the units' work (70_reset_and_hazards.md). -/

namespace Sys2Proof.Machine

/-! ## Control fields at their reset values (70_reset_and_hazards.md R160, R162; O38) -/

/-- The interrupt and the CSRs, seen with the control fields at their reset values. -/
theorem reads_of_cleared {s t : State} (h : SameControl (clearControl s) t) :
    t.irq = false ∧ busRead 0x008 t = 0 ∧ busRead 0x00C t = 0 ∧ busRead 0x010 t = 0 := by
  obtain ⟨hie, hbusy, hdone, hdrop, herr, hcmd⟩ := h
  refine ⟨irq_of_masked hie, ?_, ?_, hcmd⟩
  · rw [busRead_ctrl, ctrlWord_eq, hie]
    rfl
  · rw [busRead_status]
    simp [statusWord, State.err, CompletionCode.bits, hbusy, hdone, hdrop, herr]

/-- What R162 says of a block whose control fields are at their reset values. -/
theorem idle_of_cleared {s t : State} (h : SameControl (clearControl s) t) (hf : t.inflight = none) :
    t.busy = false ∧ t.inflight = none ∧ t.ie = false ∧ t.irq = false ∧
      busRead 0x00C t = 0 ∧ busRead 0x008 t = 0 ∧ busRead 0x010 t = 0 := by
  obtain ⟨hirq, hctrl, hstatus, hcmd⟩ := reads_of_cleared h
  exact ⟨h.busy, hf, h.ie, hirq, hstatus, hctrl, hcmd⟩

/-- Either edge of a hardware reset, `low` being the level it leaves. -/
theorem hardwareReset_cleared (s : State) (low : Bool) :
    SameControl (clearControl s) { drawRegs (clearControl s) with rstLow := low } := ⟨rfl, rfl, rfl, rfl, rfl, rfl⟩

/-- Settles O38: power-on, soft reset and both edges of a hardware reset leave the control fields at their reset values. -/
theorem resetsLeaveTheBlockIdle : Obligations.ResetsLeaveTheBlockIdle := by
  intro s limbs t ht
  simp only [List.mem_cons, List.not_mem_nil, or_false] at ht
  obtain rfl | rfl | rfl | rfl := ht
  · exact idle_of_cleared (s := State.resetWith limbs) ⟨rfl, rfl, rfl, rfl, rfl, rfl⟩ rfl
  · exact idle_of_cleared (s := s) ⟨rfl, rfl, rfl, rfl, rfl, rfl⟩ rfl
  · exact idle_of_cleared (hardwareReset_cleared s true) rfl
  · rw [releaseReset_low rfl]
    exact idle_of_cleared (hardwareReset_cleared (assertReset s) false) rfl

/-! ## The hardware reset and the time while it is asserted (70_reset_and_hazards.md R160; O37) -/

/-- While `rst_n` is low the control fields of a legal state are at their reset values. -/
theorem cleared_of_rstLow {s : State} (h : s.ResetHolds) (hr : s.rstLow = true) : SameControl (clearControl s) s := by
  obtain ⟨hie, hbusy, hdone, hdrop, herr, hcmd⟩ := h hr
  exact ⟨hie, hbusy, hdone, hdrop, herr, hcmd⟩

theorem step_of_resetHigh_notHeld {s : State} (hm : s.mover = .resetHigh) (hr : s.rstLow = false) : step s = .next s.advance := by
  rw [step, hm, takeTurn, releaseReset_high (s := s.advance) hr]

theorem step_heldWrite {s : State} {off : Offset} {v : Word} {rest : List BusOp} (hm : s.mover = .host)
    (hr : s.rstLow = true) (ha : off.toNat % 4 = 0) (ho : s.hostOps = memWrite off v :: rest) :
    step s = .next (heldWrite off { s.advance with hostOps := rest }) :=
  (step_host_write hm ho ha).trans (congrArg _ (hostWrite_low off v hr))

/-- Settles O37: an edge is the clearing with the registers drawn anew; while the reset is asserted the invariant holds the
control fields, and a write does nothing or draws the registers. -/
theorem hardwareResetClearsTheControlState : Obligations.HardwareResetClearsTheControlState := by
  intro s
  refine ⟨fun h => ⟨(drawRegs s).regs, reg_drawRegs_lt s, ?_⟩, step_of_resetHigh_notHeld, fun h hr => ?_,
    fun off v rest hm hr ha ho => ?_⟩
  · rw [step_of_hardwareResets h]
    rfl
  · have hc := cleared_of_rstLow h.resetHolds hr
    exact ⟨inflight_none_of_inv h hc.busy, reads_of_cleared hc⟩
  · rw [step_heldWrite hm hr ha ho]
    obtain ht | ⟨ht, k, i, hi, -, hoff⟩ := heldWrite_cases off { s.advance with hostOps := rest } ha
    · rw [ht]
      exact ⟨s.regs, s.draws, id, rfl, fun _ => ⟨rfl, rfl⟩⟩
    · rw [ht]
      exact ⟨(drawRegs s).regs, s.draws + 1, fun _ => reg_drawRegs_lt s, rfl, fun hn => absurd ⟨k, i, hi, hoff⟩ hn⟩

/-! ## The units' work ends (10_state.md R41; 70_reset_and_hazards.md R169) -/

/-- A bound on the hidden turns a unit still needs for its answer. -/
def Engine.turnsLeft (limbs : Nat) : Engine → Nat
  | .idle => 0
  | .mont m => (limbs - m.digit) + (match m.pending with | none => 1 | some _ => limbs + 2)
  | .exp m => m.index + 1
  | .inverse _ e => e.r + 1
  | .divide _ => 1
  | .finished _ => 0

section

variable {limbs : Nat}

theorem montWork_progress (m : MontUnit) :
    montWork limbs m ≠ .idle ∧ (montWork limbs m).turnsLeft limbs < (Engine.mont m).turnsLeft limbs := by
  unfold montWork
  split
  · next hlt => exact ⟨nofun, by simp only [Engine.turnsLeft]; omega⟩
  · split
    · next hp => exact ⟨nofun, by simp [Engine.turnsLeft, hp]⟩
    · next b hp => exact ⟨nofun, by simp only [Engine.turnsLeft, hp]; omega⟩

theorem expWork_progress (m : ExpUnit) :
    expWork limbs m ≠ .idle ∧ (expWork limbs m).turnsLeft limbs < (Engine.exp m).turnsLeft limbs := by
  unfold expWork
  split
  · exact ⟨nofun, Nat.succ_pos _⟩
  · next i hi => exact ⟨nofun, by simp [Engine.turnsLeft, hi]⟩

theorem inverseWork_progress (n : Nat) (e : EuclidRegs) :
    Engine.work limbs (.inverse n e) ≠ .idle ∧
      (Engine.work limbs (.inverse n e)).turnsLeft limbs < (Engine.inverse n e).turnsLeft limbs := by
  rw [Engine.work]
  split
  · exact ⟨nofun, Nat.succ_pos _⟩
  · next hr =>
    refine ⟨nofun, Nat.succ_lt_succ ?_⟩
    rw [euclidStep_r]
    exact Nat.mod_lt _ (Nat.pos_of_ne_zero hr)

/-- A hidden turn brings a unit at work nearer to its answer, and never loses the work. -/
theorem work_progress {e : Engine} (hidle : e ≠ .idle) (hwork : ∀ v, e ≠ .finished v) :
    Engine.work limbs e ≠ .idle ∧ (Engine.work limbs e).turnsLeft limbs < e.turnsLeft limbs := by
  cases e with
  | idle => exact absurd rfl hidle
  | mont m => exact montWork_progress m
  | exp m => exact expWork_progress m
  | inverse n e => exact inverseWork_progress n e
  | divide e => exact ⟨nofun, Nat.one_pos⟩
  | finished v => exact absurd rfl (hwork v)

/-- The work of a unit that holds anything ends in an answer. -/
theorem exists_workFor_finished {e : Engine} (h : e ≠ .idle) : ∃ k v, Engine.workFor limbs k e = .finished v := by
  induction hn : e.turnsLeft limbs using Nat.strong_induction_on generalizing e with
  | _ n ih =>
    by_cases hv : ∃ v, e = .finished v
    · obtain ⟨v, hv⟩ := hv
      exact ⟨0, v, hv⟩
    · obtain ⟨hidle, hlt⟩ := work_progress (limbs := limbs) h (not_exists.1 hv)
      obtain ⟨k, v, hk⟩ := ih _ (hn ▸ hlt) hidle rfl
      exact ⟨k + 1, v, hk⟩

end

/-! ## When acceptance loads no work (41_montgomery.md R100, R101; 42_euclid.md R120, R122; O54) -/

theorem load_of_error {limbs : Nat} {f : Inflight} {e : DecodeError} (hd : decode f.word = .error e) :
    Engine.load limbs f = .idle := by
  rw [Engine.load, hd]

theorem load_nop {limbs : Nat} {f : Inflight} (hd : decode f.word = .ok .nop) : Engine.load limbs f = .idle := by
  rw [Engine.load, hd]

/-- Work under the check `c` is not loaded exactly when the check fails, which `p` says. -/
theorem unloaded_iff {c p : Prop} [Decidable c] {e : Engine} (he : e ≠ .idle) (hp : ¬ c ↔ p) :
    (if c then e else .idle) = .idle ↔ p :=
  (ite_eq_right_iff.trans (forall_congr' fun _ => iff_false_intro he)).trans hp

/-- Settles O54: every hidden turn lowers `Engine.turnsLeft`, and acceptance loads a command's unit under its check alone. -/
theorem engineWorkIsLoadedWhereNeededAndTerminates : Obligations.EngineWorkIsLoadedWhereNeededAndTerminates := by
  refine ⟨fun limbs f => or_iff_not_imp_left.2 exists_workFor_finished, fun s w => ?_⟩
  cases hd : decode w with
  | error e => exact iff_true_intro (load_of_error (by rw [latch_word, hd]))
  | ok i =>
    have hword : decode (latch w s).word = .ok i := by rw [latch_word, hd]
    have ha : (latch w s).va = i.srcA?.map s.reg := by rw [latch_of_decode hd]
    have hb : (latch w s).vb = i.srcB?.map s.reg := by rw [latch_of_decode hd]
    have hn : (latch w s).vn = i.modulus?.map s.reg := by rw [latch_of_decode hd]
    cases i with
    | nop => exact iff_true_intro (load_nop hword)
    | mov rd ra => exact iff_true_intro (load_mov hword)
    | montmul rd ra rb rn =>
      rw [load_montmul hword ha hb hn]
      exact unloaded_iff nofun (not_and_or.trans (or_congr Nat.mod_two_ne_one not_lt))
    | tomont rd ra rn => rw [load_tomont hword ha hn]; exact unloaded_iff nofun Nat.mod_two_ne_one
    | frommont rd ra rn => rw [load_frommont hword ha hn]; exact unloaded_iff nofun Nat.mod_two_ne_one
    | modmul rd ra rb rn => rw [load_modmul hword ha hb hn]; exact unloaded_iff nofun Nat.mod_two_ne_one
    | modinv rd ra rn => rw [load_modinv hword ha hn]; exact unloaded_iff nofun not_le
    | modred rd ra rn => rw [load_modred hword ha hn]; exact unloaded_iff nofun not_not
    | modexp rd ra rb rn => rw [load_modexp hword ha hb hn]; exact unloaded_iff nofun Nat.mod_two_ne_one

end Sys2Proof.Machine
